-- ==== Sys2Proof/Word.lean ====
section
/-! DEFINITION. The word types of the block: 32-bit words, bytes, 64-byte blocks, chaining values (R4, R8, R90). -/

namespace Sys2Proof

/-- A 32-bit unsigned word: a command word, a response word, an element of H (R4, R90). -/
abbrev Word := BitVec 32

/-- One byte of a key, a message or a digest (R8). -/
abbrev Byte := BitVec 8

/-- 64 bytes: one block of the hash, the shape of BUF and of K0 (R22, R23). -/
abbrev Block := Vector Byte 64

/-- Eight words: the chaining value, the shape of H (R21). -/
abbrev Chain := Vector Word 8

/-- `0^64` (R11). -/
def zeroBlock : Block := Vector.replicate 64 0

/-- Eight zero words: H after reset, CLR and fault entry (R33, R164, R185). -/
def zeroChain : Chain := Vector.replicate 8 0

end Sys2Proof
end

