-- ==== Sys2Proof/Syntax.lean ====
section
/-! DEFINITION. The ten commands (R73), one constructor per row of the opcode table. -/

namespace Sys2Proof

/-- A decoded command word. The operand fields have exactly the widths of R71, and every value of each is legal (R72). -/
inductive Instr where
  /-- NOP, format Z, R163. -/
  | nop
  /-- CLR, format Z, R164. -/
  | clr
  /-- RDST, format Z, R162. -/
  | rdst
  /-- HSTART, format Z, R141. -/
  | hstart
  /-- KSTART, format Z, R142. -/
  | kstart
  /-- KEND, format Z, R144. -/
  | kend
  /-- FINAL, format Z, R145. -/
  | final
  /-- PUSH imm8, format B, R143. -/
  | push (imm8 : Byte)
  /-- RDW idx3, format XW, R160. -/
  | rdw (idx3 : BitVec 3)
  /-- RDB idx5, format XB, R161. -/
  | rdb (idx5 : BitVec 5)
  deriving DecidableEq, Repr

/-- The mnemonic of R73. -/
def Instr.mnemonic : Instr → String
  | .nop => "NOP"
  | .clr => "CLR"
  | .rdst => "RDST"
  | .hstart => "HSTART"
  | .kstart => "KSTART"
  | .kend => "KEND"
  | .final => "FINAL"
  | .push _ => "PUSH"
  | .rdw _ => "RDW"
  | .rdb _ => "RDB"

end Sys2Proof
end

