-- ==== Sys2Proof/Decode.lean ====
section
/-! DEFINITION. The decoder, total on every 32-bit word (R74), and the encoder (R71 to R73). -/

namespace Sys2Proof

/-- The opcode field, bits 31:24 in every format (R70). -/
def opField (cw : Word) : BitVec 8 := cw.extractLsb' 24 8

/-- Format Z: bits 23:0 must be zero (R71). -/
def decodeZ (cw : Word) (i : Instr) : Option Instr :=
  if cw.extractLsb' 0 24 = 0 then some i else none

/-- Format B: bits 23:8 must be zero, imm8 is bits 7:0 (R71, R72). -/
def decodeB (cw : Word) (mk : Byte → Instr) : Option Instr :=
  if cw.extractLsb' 8 16 = 0 then some (mk (cw.extractLsb' 0 8)) else none

/-- Format XW: bits 23:3 must be zero, idx3 is bits 2:0 (R71, R72). -/
def decodeXW (cw : Word) (mk : BitVec 3 → Instr) : Option Instr :=
  if cw.extractLsb' 3 21 = 0 then some (mk (cw.extractLsb' 0 3)) else none

/-- Format XB: bits 23:5 must be zero, idx5 is bits 4:0 (R71, R72). -/
def decodeXB (cw : Word) (mk : BitVec 5 → Instr) : Option Instr :=
  if cw.extractLsb' 5 19 = 0 then some (mk (cw.extractLsb' 0 5)) else none

/-- Decoding (R74): the command of the word, `none` for ILLEGAL (R75). It does not depend on the state. -/
def decode (cw : Word) : Option Instr :=
  if opField cw = 0x00 then decodeZ cw .nop
  else if opField cw = 0x01 then decodeZ cw .clr
  else if opField cw = 0x02 then decodeZ cw .rdst
  else if opField cw = 0x10 then decodeZ cw .hstart
  else if opField cw = 0x11 then decodeZ cw .kstart
  else if opField cw = 0x12 then decodeZ cw .kend
  else if opField cw = 0x13 then decodeZ cw .final
  else if opField cw = 0x20 then decodeB cw .push
  else if opField cw = 0x30 then decodeXW cw .rdw
  else if opField cw = 0x31 then decodeXB cw .rdb
  else none

/-- Format Z: `op ‖ 0^24` (R71). -/
def encodeZ (op : BitVec 8) : Word := op ++ (0 : BitVec 24)

/-- The command word of a command, built from the formats of R71 and the opcodes of R73. -/
def encode : Instr → Word
  | .nop => encodeZ 0x00
  | .clr => encodeZ 0x01
  | .rdst => encodeZ 0x02
  | .hstart => encodeZ 0x10
  | .kstart => encodeZ 0x11
  | .kend => encodeZ 0x12
  | .final => encodeZ 0x13
  | .push imm8 => (0x20 : BitVec 8) ++ (0 : BitVec 16) ++ imm8
  | .rdw idx3 => (0x30 : BitVec 8) ++ (0 : BitVec 21) ++ idx3
  | .rdb idx5 => (0x31 : BitVec 8) ++ (0 : BitVec 19) ++ idx5

/-- The decoder on an instruction of `nbits` bits numbered as the opcode table numbers them. A command is one
32-bit word (R70), so the table's bit numbers are the command word's own, and a longer instruction does not exist. -/
def decodeTableWord (nbits w : Nat) : Option Instr :=
  if nbits ≤ 32 then decode (BitVec.ofNat 32 (w % 2 ^ nbits)) else none

end Sys2Proof
end

