-- ==== Sys2Proof/Machine/State.lean ====
section
/-! DEFINITION. The state of the block (R20), its boundary (R35), and the state after reset (R33). -/

namespace Sys2Proof.Machine

/-- PHASE, a 3-bit register with six legal values (R25). The values 5 and 6 cannot be written down:
DESIGN CHOICE allowed by U7, safe (log entry 4). -/
inductive Phase where
  /-- 0: no operation in progress, no digest. -/
  | idle
  /-- 1: a plain SHA-256 operation is absorbing message bytes. -/
  | hash
  /-- 2: an HMAC operation is absorbing key bytes. -/
  | key
  /-- 3: an HMAC operation is absorbing message bytes into the inner hash. -/
  | msg
  /-- 4: an operation has finished; H holds its digest. -/
  | done
  /-- 7: a command was refused; only CLR, RDST, NOP and reset act. -/
  | fault
  deriving DecidableEq, Repr

/-- The causes of a fault of the block (R180). A fault is TAKEN as a next state (R185), never a stop of the model. -/
inductive Cause where
  /-- Code 1: the word decodes to ILLEGAL (R181). -/
  | illcmd
  /-- Code 2: the command is not legal in the current phase (R182). -/
  | seq
  /-- Code 3: PUSH with LEN = LEN_MAX (R183). -/
  | lenovf
  deriving DecidableEq, Repr

/-- ERRCODE, a 4-bit register that holds 0 or a cause (R26). The values 4 to 15 cannot be written down:
DESIGN CHOICE allowed by U7, safe (log entry 4). -/
inductive ErrCode where
  /-- 0: no fault. -/
  | none
  /-- The code of the cause. -/
  | of (c : Cause)
  deriving DecidableEq, Repr

/-- The architectural state: exactly the six elements of R20. -/
structure Arch where
  /-- H[0..7]: the chaining value, and the digest in phase DONE (R21). -/
  h : Chain
  /-- BUF[0..63]: the bytes of the current block (R22). -/
  buf : Block
  /-- K0[0..63]: the key block (R23). -/
  k0 : Block
  /-- LEN: the number of bytes absorbed (R24). -/
  len : BitVec 64
  /-- PHASE (R25). -/
  phase : Phase
  /-- ERRCODE (R26). -/
  errcode : ErrCode
  deriving DecidableEq, Repr

/-- What the host can send across the boundary: a reset or one command word (R35, R210, R213). -/
inductive HostEvent where
  /-- The reset input (R210). -/
  | reset
  /-- One command word `cw` (R70). -/
  | command (cw : Word)
  deriving DecidableEq, Repr

/-- The whole machine: the block and its boundary. `inbox` and `outbox` are the model's own fields
(log entries 1 and 2): the spec's step takes `cw` as an argument and returns `rsp` (R6). -/
structure State where
  /-- The six elements of R20. -/
  arch : Arch
  /-- The host events not yet taken, oldest first (R35, R59). -/
  inbox : List HostEvent
  /-- The response words produced so far, oldest first (R76). -/
  outbox : List Word
  deriving DecidableEq, Repr

/-- A stop of the machine with a fault. It has no value: "Nothing is stuck" and every fault of the block is a
defined next state (R185, R195), so no step can end here. Safe (log entry 10). -/
inductive Fault where
  deriving DecidableEq, Repr

/-- A step without a meaning. -/
inductive Refusal where
  /-- Raised by an arm of `exec` that is not modelled yet; no arm is (R195). Safe. -/
  | notModelled (mnemonic : String)
  deriving DecidableEq, Repr

/-- Every element at the reset value of R33. -/
def Arch.reset : Arch :=
  { h := zeroChain, buf := zeroBlock, k0 := zeroBlock, len := 0, phase := .idle, errcode := .none }

/-- The machine right after reset (R33). Nothing has been sent and nothing answered: DESIGN CHOICE (log entry 8). -/
def State.reset : State :=
  { arch := Arch.reset, inbox := [], outbox := [] }

end Sys2Proof.Machine
end

