-- ==== Sys2Proof/Machine/Flags.lean ====
section
/-! DEFINITION. The encodings of PHASE and ERRCODE, the two flags DV and ERR, and the STATUS view (R25 to R28). -/

namespace Sys2Proof.Machine

/-- The 3-bit value of PHASE (R25). -/
def Phase.code : Phase → BitVec 3
  | .idle => 0
  | .hash => 1
  | .key => 2
  | .msg => 3
  | .done => 4
  | .fault => 7

/-- The cause code (R180). -/
def Cause.code : Cause → BitVec 4
  | .illcmd => 1
  | .seq => 2
  | .lenovf => 3

/-- The 4-bit value of ERRCODE (R26). -/
def ErrCode.code : ErrCode → BitVec 4
  | .none => 0
  | .of c => c.code

/-- DV, digest valid: PHASE = DONE (R28). -/
def flagDV (p : Phase) : BitVec 1 := if p = .done then 1 else 0

/-- ERR, fault: PHASE = FAULT (R28). -/
def flagERR (p : Phase) : BitVec 1 := if p = .fault then 1 else 0

/-- STATUS: `zext_32(ERR ‖ DV ‖ ERRCODE[3:0] ‖ 0 ‖ PHASE[2:0])` (R27, R162). -/
def status (a : Arch) : Word :=
  (flagERR a.phase ++ flagDV a.phase ++ a.errcode.code ++ (0 : BitVec 1) ++ a.phase.code).setWidth 32

end Sys2Proof.Machine
end

