-- ==== Sys2Proof/Machine/Operands.lean ====
section
/-! DEFINITION. Byte order and the operand forms: words from bytes, the 64-bit length field, the digest view DG and
the reads from it (R29, R50 to R53, R72). -/

namespace Sys2Proof.Machine

/-- Four bytes as a word, most significant byte first (R51). -/
def wordOfBytes (b0 b1 b2 b3 : Byte) : Word := b0 ++ b1 ++ b2 ++ b3

/-- Byte `i` of a word, byte 0 most significant (R29, R53). -/
def byteOfWord (w : Word) (i : Nat) : Byte := w.extractLsb' (24 - 8 * i) 8

/-- W[t] for t in 0..15: the big-endian word of bytes 4t to 4t+3 of a block (R51). -/
def blockWord (b : Block) (t : Fin 16) : Word :=
  wordOfBytes b[4 * t.val] b[4 * t.val + 1] b[4 * t.val + 2] b[4 * t.val + 3]

/-- Byte `j` of a 64-bit number, byte 0 most significant: `v[63-8j : 56-8j]` (R52). -/
def lenByte (v : BitVec 64) (j : Nat) : Byte := v.extractLsb' (56 - 8 * j) 8

/-- DG[i] = H[i div 4][31 - 8(i mod 4) : 24 - 8(i mod 4)] (R29). -/
def digestByte (h : Chain) (i : Fin 32) : Byte := byteOfWord h[i.val / 4] (i.val % 4)

/-- `DigestBytes()`: DG[0..31] (R106). -/
def digestBytes (h : Chain) : Vector Byte 32 := Vector.ofFn (digestByte h)

/-- `MemRead(a, 1)` in the digest space (R11, R50). -/
def memRead1 (h : Chain) (a : Fin 32) : Byte := digestByte h a

/-- The byte address `4*idx3 + j` in the digest space; always in range (R56, R160). -/
def wordAddr (idx3 : BitVec 3) (j : Fin 4) : Fin 32 := ⟨4 * idx3.toNat + j.val, by omega⟩

/-- `MemRead(4*idx3, 4)` in the digest space: byte a most significant (R11, R160). -/
def memRead4 (h : Chain) (idx3 : BitVec 3) : Word :=
  wordOfBytes (memRead1 h (wordAddr idx3 0)) (memRead1 h (wordAddr idx3 1))
    (memRead1 h (wordAddr idx3 2)) (memRead1 h (wordAddr idx3 3))

/-- `MemWrite(a, 1, v)`: BUF[a] <- v (R11). -/
def memWrite1 (buf : Block) (a : Fin 64) (v : Byte) : Block := buf.set a.val v

/-- `LEN mod 64`, the fill level of BUF, bits 5:0 of LEN (R24, R110). -/
def fill (len : BitVec 64) : Fin 64 := ⟨len.toNat % 64, Nat.mod_lt _ (by decide)⟩

end Sys2Proof.Machine
end

