-- ==== Sys2Proof/Machine/Ops.lean ====
section
/-! DEFINITION. The shared operations of every command: the response word, fault entry and the way out of it, the
ignored word, and the order of the checks (R76, R185 to R189). -/

namespace Sys2Proof.Machine

/-- What a step of the machine answers. -/
abbrev Result := Host.Outcome State Fault Refusal

/-- A command completes: the architectural state after, and one response word (R6, R76). -/
def complete (a : Arch) (rsp : Word) (s : State) : Result :=
  .next { s with arch := a, outbox := s.outbox ++ [rsp] }

/-- The state after fault entry: everything cleared, the cause recorded, nothing saved (R185). -/
def faultEntry (c : Cause) : Arch :=
  { h := zeroChain, buf := zeroBlock, k0 := zeroBlock, len := 0, phase := .fault, errcode := .of c }

/-- `raise Fault(code)`: taking the exception is the whole effect of the command (R185, R186). -/
def raiseFault (c : Cause) (s : State) : Result := complete (faultEntry c) 0 s

/-- The state after CLR, the one command that leaves phase FAULT (R164, R189). -/
def clearedArch : Arch :=
  { h := zeroChain, buf := zeroBlock, k0 := zeroBlock, len := 0, phase := .idle, errcode := .none }

/-- A word ignored in phase FAULT: no state changes, rsp = 0 (R188). -/
def ignoreWord (s : State) : Result := complete s.arch 0 s

/-- Steps (1) and (3) of R187 for a command legal only in the listed phases: ignored in FAULT, Fault(SEQ) outside
the list, otherwise `act`. -/
def inSequence (legal : List Phase) (act : State → Result) (s : State) : Result :=
  if s.arch.phase = .fault then ignoreWord s
  else if s.arch.phase ∈ legal then act s
  else raiseFault .seq s

/-- Steps (1) and (2) of R187 for a word that decodes to ILLEGAL (R181, R188). -/
def illegalWord (s : State) : Result :=
  if s.arch.phase = .fault then ignoreWord s else raiseFault .illcmd s

/-- The reset event: every element to its reset value, no response (R33, R210). -/
def takeReset (s : State) : State := { s with arch := Arch.reset }

end Sys2Proof.Machine
end

