-- ==== Sys2Proof/Machine/Readout.lean ====
section
/-! DEFINITION. The read-out commands RDW and RDB and the control commands RDST, NOP and CLR (R160 to R164). -/

namespace Sys2Proof.Machine

/-- RDW idx3: rsp <- MemRead(4*idx3, 4) (R160). -/
def execRdw (idx3 : BitVec 3) (s : State) : Result :=
  inSequence [.done] (fun s => complete s.arch (memRead4 s.arch.h idx3) s) s

/-- RDB idx5: rsp <- zext_32(MemRead(idx5, 1)) (R161). -/
def execRdb (idx5 : BitVec 5) (s : State) : Result :=
  inSequence [.done] (fun s => complete s.arch ((memRead1 s.arch.h idx5.toFin).setWidth 32) s) s

/-- RDST: rsp <- STATUS, in every phase (R162). -/
def execRdst (s : State) : Result := complete s.arch (status s.arch) s

/-- NOP: nothing, in every phase (R163). -/
def execNop (s : State) : Result := complete s.arch 0 s

/-- CLR: every element to its reset value, in every phase (R164). -/
def execClr (s : State) : Result := complete clearedArch 0 s

end Sys2Proof.Machine
end

