-- ==== Sys2Proof/Config.lean ====
section
/-! DEFINITION. The implementation parameters of R4, and the one parameter the spec leaves OPEN. -/

namespace Sys2Proof.Config

/-- The hash algorithms the block can be built for: SHA-256 and nothing else (R2). -/
inductive HashAlg where
  | sha256
  deriving DecidableEq, Repr

/-- HASH_ALG, a compile-time constant; no register or command selects another (R2, R4). -/
def hashAlg : HashAlg := .sha256

/-- DIGEST_BYTES (R4). -/
def digestBytes : Nat := 32

/-- BLOCK_BYTES, the B of the HMAC (R4, R121). -/
def blockBytes : Nat := 64

/-- WORD_BITS (R4). -/
def wordBits : Nat := 32

/-- ROUNDS per compression (R4). -/
def rounds : Nat := 64

/-- IPAD_BYTE (R4, R121). -/
def ipadByte : BitVec 8 := 0x36

/-- OPAD_BYTE (R4, R121). -/
def opadByte : BitVec 8 := 0x5C

/-- LEN_BITS, the width of the byte counter LEN (R4). -/
def lenBits : Nat := 64

/-- LEN_MAX = 2^61 - 1, the largest value LEN may hold (R4, R183). -/
def lenMax : BitVec 64 := 0x1FFFFFFFFFFFFFFF

/-- CMD_BITS, the width of a command word and of a response word (R4). -/
def cmdBits : Nat := 32

/-- T_COMPRESS, the clock cycles one compression takes: OPEN and informative (R4, R217, U4).
UNVERIFIED: no value is given. No step reads it (log entry 7); safe, since nothing can be proved of its value. -/
opaque tCompress : Nat

end Sys2Proof.Config
end

