-- ==== Sys2Proof/Machine/Sha256.lean ====
section
/-! DEFINITION. The SHA-256 hash core: word operations, logical functions, constants, schedule, round, compression,
and the procedures HInit, Absorb and Finish (R90 to R105). -/

namespace Sys2Proof.Machine

/-- `ROTR_n(x)` for a constant n with 0 < n < 32 (R90(b)). -/
def rotr (n : Nat) (x : Word) : Word := (x >>> n) ||| (x <<< (32 - n))

/-- `SHR_n(x)`, zeros entering at the top (R90(c)). -/
def shr (n : Nat) (x : Word) : Word := x >>> n

/-- Ch (R91). -/
def ch (x y z : Word) : Word := (x &&& y) ^^^ (~~~x &&& z)

/-- Maj (R92). -/
def maj (x y z : Word) : Word := (x &&& y) ^^^ (x &&& z) ^^^ (y &&& z)

/-- BSIG0 (R93). -/
def bsig0 (x : Word) : Word := rotr 2 x ^^^ rotr 13 x ^^^ rotr 22 x

/-- BSIG1 (R94). -/
def bsig1 (x : Word) : Word := rotr 6 x ^^^ rotr 11 x ^^^ rotr 25 x

/-- SSIG0; the last term is a shift (R95). -/
def ssig0 (x : Word) : Word := rotr 7 x ^^^ rotr 18 x ^^^ shr 3 x

/-- SSIG1; the last term is a shift (R96). -/
def ssig1 (x : Word) : Word := rotr 17 x ^^^ rotr 19 x ^^^ shr 10 x

/-- The round constants K[0..31], first half of the table of R97. -/
def roundConstantsLow : List Word :=
  [ 0x428A2F98, 0x71374491, 0xB5C0FBCF, 0xE9B5DBA5,
    0x3956C25B, 0x59F111F1, 0x923F82A4, 0xAB1C5ED5,
    0xD807AA98, 0x12835B01, 0x243185BE, 0x550C7DC3,
    0x72BE5D74, 0x80DEB1FE, 0x9BDC06A7, 0xC19BF174,
    0xE49B69C1, 0xEFBE4786, 0x0FC19DC6, 0x240CA1CC,
    0x2DE92C6F, 0x4A7484AA, 0x5CB0A9DC, 0x76F988DA,
    0x983E5152, 0xA831C66D, 0xB00327C8, 0xBF597FC7,
    0xC6E00BF3, 0xD5A79147, 0x06CA6351, 0x14292967 ]

/-- The round constants K[32..63], second half of the table of R97. -/
def roundConstantsHigh : List Word :=
  [ 0x27B70A85, 0x2E1B2138, 0x4D2C6DFC, 0x53380D13,
    0x650A7354, 0x766A0ABB, 0x81C2C92E, 0x92722C85,
    0xA2BFE8A1, 0xA81A664B, 0xC24B8B70, 0xC76C51A3,
    0xD192E819, 0xD6990624, 0xF40E3585, 0x106AA070,
    0x19A4C116, 0x1E376C08, 0x2748774C, 0x34B0BCB5,
    0x391C0CB3, 0x4ED8AA4A, 0x5B9CCA4F, 0x682E6FF3,
    0x748F82EE, 0x78A5636F, 0x84C87814, 0x8CC70208,
    0x90BEFFFA, 0xA4506CEB, 0xBEF9A3F7, 0xC67178F2 ]

/-- K[0..63] (R97). -/
def roundConstants : List Word := roundConstantsLow ++ roundConstantsHigh

/-- IV[0..7] (R98). -/
def initialHash : Chain :=
  #v[0x6A09E667, 0xBB67AE85, 0x3C6EF372, 0xA54FF53A, 0x510E527F, 0x9B05688C, 0x1F83D9AB, 0x5BE0CD19]

/-- W[t] from the words before it, t being how many there are: the recurrence of R99 for t in 16..63. -/
def scheduleNext (W : List Word) : Word :=
  let t := W.length
  ssig1 (W.getD (t - 2) 0) + W.getD (t - 7) 0 + ssig0 (W.getD (t - 15) 0) + W.getD (t - 16) 0

/-- `n` more words of the schedule (R99). -/
def scheduleExtend : Nat → List Word → List Word
  | 0, W => W
  | n + 1, W => scheduleExtend n (W ++ [scheduleNext W])

/-- The message schedule W[0..63] of a block (R99). -/
def schedule (b : Block) : List Word := scheduleExtend 48 ((List.finRange 16).map (blockWord b))

/-- The eight working variables of the compression (R30); hidden, not state. -/
structure Work where
  a : Word
  b : Word
  c : Word
  d : Word
  e : Word
  f : Word
  g : Word
  h : Word
  deriving DecidableEq, Repr

/-- One round: all eight outputs from the eight inputs (R100, R218). -/
def round (v : Work) (k w : Word) : Work :=
  let t1 := v.h + bsig1 v.e + ch v.e v.f v.g + k + w
  let t2 := bsig0 v.a + maj v.a v.b v.c
  { a := t1 + t2, b := v.a, c := v.b, d := v.c, e := v.d + t1, f := v.e, g := v.f, h := v.g }

/-- v_0: the working variables loaded from the chaining value (R101). -/
def Work.ofChain (h : Chain) : Work :=
  { a := h[0], b := h[1], c := h[2], d := h[3], e := h[4], f := h[5], g := h[6], h := h[7] }

/-- The rounds over the pairs (K[t], W[t]) in order (R101). -/
def rounds (kw : List (Word × Word)) (v : Work) : Work :=
  kw.foldl (fun v p => round v p.1 p.2) v

/-- v_64 (R101). -/
def workAfter (hin : Chain) (b : Block) : Work :=
  rounds (roundConstants.zip (schedule b)) (Work.ofChain hin)

/-- `Compress(Hin, B)`: the 64 rounds and the feed-forward addition (R102). -/
def compress (hin : Chain) (b : Block) : Chain :=
  let v := workAfter hin b
  #v[hin[0] + v.a, hin[1] + v.b, hin[2] + v.c, hin[3] + v.d,
     hin[4] + v.e, hin[5] + v.f, hin[6] + v.g, hin[7] + v.h]

/-- `H <- Compress(H, BUF); BUF <- 0^64` (R102, R104, R105). -/
def compressBuf (a : Arch) : Arch := { a with h := compress a.h a.buf, buf := zeroBlock }

/-- `HInit()` (R103). -/
def hInit (a : Arch) : Arch := { a with h := initialHash, buf := zeroBlock, len := 0 }

/-- BUF[LEN mod 64] <- b; LEN <- LEN + 1 (the first two lines of R104). -/
def appendByte (b : Byte) (a : Arch) : Arch :=
  { a with buf := memWrite1 a.buf (fill a.len) b, len := a.len + 1 }

/-- `Absorb(b)`: append, and compress at once when the byte completes a block (R104). -/
def absorb (b : Byte) (a : Arch) : Arch :=
  if fill (appendByte b a).len = 0 then compressBuf (appendByte b a) else appendByte b a

/-- Absorb of each byte of a sequence in order: the loops of R124 and R125. -/
def absorbAll (bs : List Byte) (a : Arch) : Arch := bs.foldl (fun a b => absorb b a) a

/-- BUF[r] <- 0x80 and zero above r (R105). -/
def padMark (buf : Block) (r : Fin 64) : Block :=
  Vector.ofFn fun j => if j.val < r.val then buf[j.val] else if j = r then 0x80 else 0

/-- BUF[56+j] <- v[63-8j : 56-8j] for j in 0..7 (R52, R105). -/
def putLength (buf : Block) (v : BitVec 64) : Block :=
  Vector.ofFn fun j => if j.val < 56 then buf[j.val] else lenByte v (j.val - 56)

/-- The 0x80 byte is placed; the block is compressed when there is no room for the length (R105). -/
def finishMark (a : Arch) : Arch :=
  let m := { a with buf := padMark a.buf (fill a.len) }
  if 56 ≤ (fill a.len).val then compressBuf m else m

/-- `Finish()`: pad, place the bit length 8*L, compress, clear BUF and LEN (R105). -/
def finish (a : Arch) : Arch :=
  let m := finishMark a
  { compressBuf { m with buf := putLength m.buf (8 * a.len) } with len := 0 }

end Sys2Proof.Machine
end

