-- ==== Sys2Proof/Machine/Hmac.lean ====
section
/-! DEFINITION. The HMAC processor: key capture, key block, the pad XOR, the inner and the outer hash (R121 to R126). -/

namespace Sys2Proof.Machine

/-- `KeyCapture(b)`: if LEN < 64 then K0[LEN] <- b (R122). -/
def keyCapture (b : Byte) (a : Arch) : Arch :=
  if lt : a.len.toNat < 64 then { a with k0 := a.k0.set a.len.toNat b } else a

/-- A digest extended on the right with 32 zero bytes to a key block (R123). -/
def keyBlockOfDigest (d : Vector Byte 32) : Block :=
  Vector.ofFn fun j => if lt : j.val < 32 then d[j.val] else 0

/-- `DeriveKeyBlock()`: a key of more than 64 bytes is replaced by its digest (R123). -/
def deriveKeyBlock (a : Arch) : Arch :=
  if 64 < a.len.toNat then
    let f := finish a
    { f with k0 := keyBlockOfDigest (digestBytes f.h) }
  else a

/-- Lane j of the result is K0[j] xor the pad byte, lane 0 first (R126). -/
def xorPad (k0 : Block) (pad : Byte) : List Byte := k0.toList.map (· ^^^ pad)

/-- `InnerStart()`: begin the hash and absorb K0 xor ipad (R124). -/
def innerStart (a : Arch) : Arch := absorbAll (xorPad a.k0 Config.ipadByte) (hInit a)

/-- `OuterHash()`: the inner digest is copied before HInit overwrites H (R125, R218). -/
def outerHash (a : Arch) : Arch :=
  let inner := digestBytes a.h
  finish (absorbAll inner.toList (absorbAll (xorPad a.k0 Config.opadByte) (hInit a)))

end Sys2Proof.Machine
end

