-- ==== Sys2Proof/Machine/Stream.lean ====
section
/-! DEFINITION. The operation commands HSTART, KSTART, PUSH, KEND and FINAL (R141 to R145). -/

namespace Sys2Proof.Machine

/-- HInit and K0 <- 0^64, entering the given phase: the common body of HSTART and KSTART (R141, R142). -/
def startOperation (p : Phase) (a : Arch) : Arch :=
  { hInit a with k0 := zeroBlock, phase := p }

/-- HSTART (R141). -/
def execHstart (s : State) : Result :=
  inSequence [.idle, .done] (fun s => complete (startOperation .hash s.arch) 0 s) s

/-- KSTART (R142). -/
def execKstart (s : State) : Result :=
  inSequence [.idle, .done] (fun s => complete (startOperation .key s.arch) 0 s) s

/-- The effect of an accepted PUSH: key capture in phase KEY, then Absorb (R143). -/
def pushByte (b : Byte) (a : Arch) : Arch :=
  absorb b (if a.phase = .key then keyCapture b a else a)

/-- PUSH imm8; the length is checked after the phase and before the increment (R143, R183, R187). -/
def execPush (imm8 : Byte) (s : State) : Result :=
  inSequence [.hash, .key, .msg]
    (fun s => if s.arch.len = Config.lenMax then raiseFault .lenovf s
      else complete (pushByte imm8 s.arch) 0 s) s

/-- The effect of an accepted KEND (R144). -/
def endKey (a : Arch) : Arch := { innerStart (deriveKeyBlock a) with phase := .msg }

/-- KEND (R144). -/
def execKend (s : State) : Result :=
  inSequence [.key] (fun s => complete (endKey s.arch) 0 s) s

/-- The effect of an accepted FINAL: Finish, in phase MSG the outer hash, then the key is erased (R128, R145). -/
def endMessage (a : Arch) : Arch :=
  let f := finish a
  let d := if a.phase = .msg then outerHash f else f
  { d with k0 := zeroBlock, phase := .done }

/-- FINAL (R145). -/
def execFinal (s : State) : Result :=
  inSequence [.hash, .msg] (fun s => complete (endMessage s.arch) 0 s) s

end Sys2Proof.Machine
end

