-- ==== Sys2Proof/Machine/Dispatch.lean ====
section
/-! DEFINITION. One arm per command: the meaning of each (R141 to R145, R160 to R164). -/

namespace Sys2Proof.Machine

def exec (i : Instr) (s : State) : Host.Outcome State Fault Refusal :=
  match i with
  | .nop => Sys2Proof.Machine.execNop s
  | .clr => Sys2Proof.Machine.execClr s
  | .rdst => Sys2Proof.Machine.execRdst s
  | .hstart => Sys2Proof.Machine.execHstart s
  | .kstart => Sys2Proof.Machine.execKstart s
  | .kend => Sys2Proof.Machine.execKend s
  | .final => Sys2Proof.Machine.execFinal s
  | .push imm8 => Sys2Proof.Machine.execPush imm8 s
  | .rdw idx3 => Sys2Proof.Machine.execRdw idx3 s
  | .rdb idx5 => Sys2Proof.Machine.execRdb idx5 s

end Sys2Proof.Machine
end

