-- ==== Sys2Proof/Machine/Port.lean ====
section
/-! DEFINITION. The command port: what the machine does with the oldest host event (R6, R35, R59, R187, R210). -/

namespace Sys2Proof.Machine

/-- One command word: decoded, then executed, or treated as ILLEGAL (R74, R187). -/
def runWord (cw : Word) (s : State) : Result :=
  match decode cw with
  | some i => exec i s
  | none => illegalWord s

/-- One host event, already taken from the inbox. -/
def runEvent (e : HostEvent) (s : State) : Result :=
  match e with
  | .reset => .next (takeReset s)
  | .command cw => runWord cw s

/-- One step: the oldest event is taken and carried out whole (R6, R59). With no event the state is held (R215):
DESIGN CHOICE, safe (log entry 3). -/
def serveHost (s : State) : Result :=
  match s.inbox with
  | [] => .next s
  | e :: rest => runEvent e { s with inbox := rest }

end Sys2Proof.Machine
end

