-- ==== Sys2Proof/Machine/Step.lean ====
section
/-! DEFINITION. The step function, and how one command word is handed to it. -/

namespace Sys2Proof.Machine

/-- One step of the machine (R6). -/
def step (s : State) : Host.Outcome State Fault Refusal := serveHost s

/-- The command word stands first in the inbox, where `step` takes its next command (log entry 8): the core fetches
nothing, the host supplies every word (R34, R61). -/
def State.withFetchWord (s : State) (nbits w : Nat) : State :=
  { s with inbox := .command (BitVec.ofNat 32 (w % 2 ^ nbits)) :: s.inbox }

end Sys2Proof.Machine
end

