-- ==== Sys2Proof/Machine/Compressions.lean ====
section
/-! DEFINITION. The procedures of the hash core and of the HMAC processor with a count of their compressions beside
the state (R108, R129). The count is no state of the block, and no step of the machine uses this file. -/

namespace Sys2Proof.Machine

/-- The architectural state with the compressions performed so far. -/
structure Counted where
  arch : Arch
  count : Nat
  deriving DecidableEq, Repr

/-- One compression of BUF (R102). -/
def countedCompress (c : Counted) : Counted := { arch := compressBuf c.arch, count := c.count + 1 }

/-- Absorb (R104). -/
def countedAbsorb (b : Byte) (c : Counted) : Counted :=
  let m := { c with arch := appendByte b c.arch }
  if fill m.arch.len = 0 then countedCompress m else m

/-- Absorb of each byte of a sequence in order. -/
def countedAbsorbAll (bs : List Byte) (c : Counted) : Counted := bs.foldl (fun c b => countedAbsorb b c) c

/-- Finish (R105). -/
def countedFinish (c : Counted) : Counted :=
  let m := { c with arch := { c.arch with buf := padMark c.arch.buf (fill c.arch.len) } }
  let n := if 56 ≤ (fill c.arch.len).val then countedCompress m else m
  let o := countedCompress { n with arch := { n.arch with buf := putLength n.arch.buf (8 * c.arch.len) } }
  { o with arch := { o.arch with len := 0 } }

/-- The stream of a hash operation: HInit, then Absorb of each byte (R107). -/
def countedStream (M : List Byte) (a : Arch) : Counted := countedAbsorbAll M { arch := hInit a, count := 0 }

/-- An accepted PUSH (R143). -/
def countedPush (b : Byte) (a : Arch) : Counted :=
  countedAbsorb b { arch := if a.phase = .key then keyCapture b a else a, count := 0 }

/-- DeriveKeyBlock (R123). -/
def countedDeriveKeyBlock (a : Arch) : Counted :=
  if 64 < a.len.toNat then
    let f := countedFinish { arch := a, count := 0 }
    { f with arch := { f.arch with k0 := keyBlockOfDigest (digestBytes f.arch.h) } }
  else { arch := a, count := 0 }

/-- An accepted KEND (R124, R144). -/
def countedEndKey (a : Arch) : Counted :=
  let d := countedDeriveKeyBlock a
  let i := countedAbsorbAll (xorPad d.arch.k0 Config.ipadByte) { d with arch := hInit d.arch }
  { i with arch := { i.arch with phase := .msg } }

/-- OuterHash (R125). -/
def countedOuterHash (c : Counted) : Counted :=
  let inner := digestBytes c.arch.h
  countedFinish (countedAbsorbAll inner.toList
    (countedAbsorbAll (xorPad c.arch.k0 Config.opadByte) { c with arch := hInit c.arch }))

/-- An accepted FINAL (R145). -/
def countedEndMessage (a : Arch) : Counted :=
  let f := countedFinish { arch := a, count := 0 }
  let d := if a.phase = .msg then countedOuterHash f else f
  { d with arch := { d.arch with k0 := zeroBlock, phase := .done } }

end Sys2Proof.Machine
end

