-- ==== Sys2Proof/Machine/Assembler.lean ====
section
/-! DEFINITION. The hexadecimal notation of byte sequences (R9), the assembler's line format (R77) and the
pseudo-instructions (R78). Text is a list of characters; what
R77 leaves open of a line's form is the model's choice (log entry 11). No step of the machine uses this file. -/

namespace Sys2Proof.Machine

/-- One uppercase hexadecimal digit (R9). -/
def hexDigit (n : BitVec 4) : Char :=
  ['0', '1', '2', '3', '4', '5', '6', '7', '8', '9', 'A', 'B', 'C', 'D', 'E', 'F'].getD n.toNat '0'

/-- The value of a hexadecimal digit; case carries no meaning (R9). -/
def hexValue (c : Char) : Option Nat :=
  if '0' ≤ c ∧ c ≤ '9' then some (c.toNat - 48)
  else if 'A' ≤ c ∧ c ≤ 'F' then some (c.toNat - 55)
  else if 'a' ≤ c ∧ c ≤ 'f' then some (c.toNat - 87)
  else none

/-- The value of a decimal digit. -/
def decValue (c : Char) : Option Nat :=
  if '0' ≤ c ∧ c ≤ '9' then some (c.toNat - 48) else none

/-- A byte as two digits, most significant nibble first (R9). -/
def hexByte (b : Byte) : List Char := [hexDigit (b.extractLsb' 4 4), hexDigit (b.extractLsb' 0 4)]

/-- A byte sequence in the notation of R9. -/
def hexBytes : List Byte → List Char
  | [] => []
  | b :: bs => hexByte b ++ hexBytes bs

/-- The byte sequence a string of hexadecimal digits writes; each pair is one byte (R9). -/
def parseHexBytes : List Char → Option (List Byte)
  | [] => some []
  | [_] => none
  | c :: d :: cs => do
    let hi ← hexValue c
    let lo ← hexValue d
    let rest ← parseHexBytes cs
    return BitVec.ofNat 8 (16 * hi + lo) :: rest

/-- A number in the given base from its digits. -/
def parseDigits (base : Nat) (value : Char → Option Nat) (acc : Nat) : List Char → Option Nat
  | [] => some acc
  | c :: cs => do
    let v ← value c
    parseDigits base value (base * acc + v) cs

/-- An operand: decimal, or hexadecimal with the prefix 0x (R77). -/
def parseNumber : List Char → Option Nat
  | [] => none
  | '0' :: 'x' :: c :: cs => parseDigits 16 hexValue 0 (c :: cs)
  | c :: cs => parseDigits 10 decValue 0 (c :: cs)

/-- A token of an assembler line. -/
inductive Token where
  | word (cs : List Char)
  | hexString (cs : List Char)
  | text (cs : List Char)
  | comma
  deriving DecidableEq, Repr

/-- What the tokenizer is in the middle of, with the characters read so far, newest first. -/
inductive LexMode where
  | gap
  | inWord (acc : List Char)
  | inHex (acc : List Char)
  | inText (acc : List Char)
  deriving DecidableEq, Repr

/-- The token a mode ends as when a separator is met. -/
def LexMode.flush : LexMode → List Token
  | .gap => []
  | .inWord acc => [.word acc.reverse]
  | .inHex acc => [.hexString acc.reverse]
  | .inText acc => [.text acc.reverse]

/-- The tokens of one line; a semicolon outside quotes starts a comment (R77). -/
def lex : LexMode → List Char → Option (List Token)
  | .inHex _, [] => none
  | .inText _, [] => none
  | m, [] => some m.flush
  | .inHex acc, c :: cs =>
    if c = '"' then (lex .gap cs).map (LexMode.flush (.inHex acc) ++ ·) else lex (.inHex (c :: acc)) cs
  | .inText acc, c :: cs =>
    if c = '\'' then (lex .gap cs).map (LexMode.flush (.inText acc) ++ ·) else lex (.inText (c :: acc)) cs
  | m, c :: cs =>
    if c = ';' then some m.flush
    else if c = ' ' ∨ c = '\t' then (lex .gap cs).map (m.flush ++ ·)
    else if c = ',' then (lex .gap cs).map (m.flush ++ [.comma] ++ ·)
    else if c = '"' then (lex (.inHex []) cs).map (m.flush ++ ·)
    else if c = '\'' then (lex (.inText []) cs).map (m.flush ++ ·)
    else match m with
      | .inWord acc => lex (.inWord (c :: acc)) cs
      | _ => lex (.inWord [c]) cs

/-- PUSHX: one PUSH for each byte, in order (R78). -/
def expandPushx (bs : List Byte) : List Instr := bs.map .push

/-- A character PUSHS allows: 0x20 to 0x7E other than the quote (R78). -/
def pushsAllows (c : Char) : Bool := 0x20 ≤ c.toNat && c.toNat ≤ 0x7E && c ≠ '\''

/-- PUSHS: one PUSH of the ASCII code for each character, in order (R78, D19). -/
def expandPushs (text : List Char) : Option (List Instr) :=
  if text.all pushsAllows then some (text.map fun c => .push (BitVec.ofNat 8 c.toNat)) else none

/-- HASH "<hex>" (R78). -/
def expandHash (M : List Byte) : List Instr := [.hstart] ++ expandPushx M ++ [.final]

/-- HMAC "<hexkey>", "<hexmsg>" (R78). -/
def expandHmac (K M : List Byte) : List Instr :=
  [.kstart] ++ expandPushx K ++ [.kend] ++ expandPushx M ++ [.final]

/-- RDDG: RDB 0 to RDB 31 (R78). -/
def expandRddg : List Instr := (List.finRange 32).map fun i => .rdb (BitVec.ofFin i)

/-- RDDW: RDW 0 to RDW 7 (R78). -/
def expandRddw : List Instr := (List.finRange 8).map fun i => .rdw (BitVec.ofFin i)

/-- A mnemonic alone on its line: the seven commands without an operand, RDDG and RDDW (R77, R78). -/
def assembleBare (m : List Char) : Option (List Instr) :=
  if m = ['N', 'O', 'P'] then some [.nop]
  else if m = ['C', 'L', 'R'] then some [.clr]
  else if m = ['R', 'D', 'S', 'T'] then some [.rdst]
  else if m = ['H', 'S', 'T', 'A', 'R', 'T'] then some [.hstart]
  else if m = ['K', 'S', 'T', 'A', 'R', 'T'] then some [.kstart]
  else if m = ['K', 'E', 'N', 'D'] then some [.kend]
  else if m = ['F', 'I', 'N', 'A', 'L'] then some [.final]
  else if m = ['R', 'D', 'D', 'G'] then some expandRddg
  else if m = ['R', 'D', 'D', 'W'] then some expandRddw
  else none

/-- A mnemonic with a number in the range of its field: 0..255 for PUSH, 0..7 for RDW, 0..31 for RDB (R77). -/
def assembleNumber (m : List Char) (n : Nat) : Option (List Instr) :=
  if m = ['P', 'U', 'S', 'H'] then if n ≤ 255 then some [.push (BitVec.ofNat 8 n)] else none
  else if m = ['R', 'D', 'W'] then if n ≤ 7 then some [.rdw (BitVec.ofNat 3 n)] else none
  else if m = ['R', 'D', 'B'] then if n ≤ 31 then some [.rdb (BitVec.ofNat 5 n)] else none
  else none

/-- The commands a line of tokens stands for (R77, R78). -/
def assembleTokens : List Token → Option (List Instr)
  | [] => some []
  | [.word m] => assembleBare m
  | [.word m, .word n] => (parseNumber n).bind (assembleNumber m)
  | [.word m, .hexString h] =>
    if m = ['P', 'U', 'S', 'H', 'X'] then (parseHexBytes h).map expandPushx
    else if m = ['H', 'A', 'S', 'H'] then (parseHexBytes h).map expandHash
    else none
  | [.word m, .text t] => if m = ['P', 'U', 'S', 'H', 'S'] then expandPushs t else none
  | [.word m, .hexString k, .comma, .hexString h] =>
    if m = ['H', 'M', 'A', 'C'] then do
      let K ← parseHexBytes k
      let M ← parseHexBytes h
      return expandHmac K M
    else none
  | _ => none

/-- One line of assembly (R77, R78); `none` where the line is not assembly. -/
def assembleLine (line : List Char) : Option (List Instr) := (lex .gap line).bind assembleTokens

/-- A program, one command or pseudo-instruction a line (R77). -/
def assemble : List (List Char) → Option (List Instr)
  | [] => some []
  | l :: ls => do
    let is ← assembleLine l
    let rest ← assemble ls
    return is ++ rest

/-- A small number in decimal: the operands of RDW and RDB are below 100. -/
def decText (n : Nat) : List Char :=
  if n < 10 then [hexDigit (BitVec.ofNat 4 n)]
  else [hexDigit (BitVec.ofNat 4 (n / 10)), hexDigit (BitVec.ofNat 4 (n % 10))]

/-- A command in the assembler's notation (R77). -/
def asmText : Instr → List Char
  | .nop => ['N', 'O', 'P']
  | .clr => ['C', 'L', 'R']
  | .rdst => ['R', 'D', 'S', 'T']
  | .hstart => ['H', 'S', 'T', 'A', 'R', 'T']
  | .kstart => ['K', 'S', 'T', 'A', 'R', 'T']
  | .kend => ['K', 'E', 'N', 'D']
  | .final => ['F', 'I', 'N', 'A', 'L']
  | .push b => ['P', 'U', 'S', 'H', ' ', '0', 'x'] ++ hexByte b
  | .rdw i => ['R', 'D', 'W', ' '] ++ decText i.toNat
  | .rdb i => ['R', 'D', 'B', ' '] ++ decText i.toNat

/-- A command word as eight hexadecimal digits (R77). -/
def hexWord (w : Word) : List Char :=
  hexBytes [w.extractLsb' 24 8, w.extractLsb' 16 8, w.extractLsb' 8 8, w.extractLsb' 0 8]

/-- A line of a listing: the command word, then the command (R77). -/
def listingLine (i : Instr) : List Char := hexWord (encode i) ++ [' ', ' '] ++ asmText i

end Sys2Proof.Machine
end

