-- ==== Sys2Proof/Machine/Function.lean ====
section
/-! DEFINITION. The pure functions SHA256, KeyBlock and HMAC (R107, R123, R127), written from byte sequences alone,
without the block's state, so that the procedures can be held against them. -/

namespace Sys2Proof.Machine

/-- be64(n): the 8-byte big-endian form (R107). -/
def be64 (v : BitVec 64) : List Byte := (List.range 8).map (lenByte v)

/-- The least k with (L + 1 + k + 8) mod 64 = 0 (R107). -/
def padZeros (L : Nat) : Nat := (64 - (L + 9) % 64) % 64

/-- P = M ‖ 80 ‖ 0^k ‖ be64(8*L) (R107). The bit length is taken mod 2^64, which changes nothing for L < 2^61
(log entry 12). -/
def padMessage (M : List Byte) : List Byte :=
  M ++ [0x80] ++ List.replicate (padZeros M.length) 0 ++ be64 (BitVec.ofNat 64 (8 * M.length))

/-- The block whose bytes are the first 64 of a sequence, zero where the sequence has ended. -/
def blockOfBytes (bs : List Byte) : Block := Vector.ofFn fun j => bs.getD j.val 0

/-- The first `n` blocks of a byte sequence (R107). -/
def cutBlocks : Nat → List Byte → List Block
  | 0, _ => []
  | n + 1, bs => blockOfBytes (bs.take 64) :: cutBlocks n (bs.drop 64)

/-- The whole blocks of a byte sequence (R107). -/
def blocksOf (bs : List Byte) : List Block := cutBlocks (bs.length / 64) bs

/-- C_0, C_1, ..., C_n: the chaining over the blocks (R107). -/
def hashBlocks (c : Chain) (bs : List Block) : Chain := bs.foldl compress c

/-- SHA256(M) (R107). -/
def sha256 (M : List Byte) : Vector Byte 32 :=
  digestBytes (hashBlocks initialHash (blocksOf (padMessage M)))

/-- KeyBlock(K): zero-extended when len K <= 64, else the digest of K zero-extended (R123). -/
def keyBlock (K : List Byte) : Block :=
  if K.length ≤ 64 then blockOfBytes (K ++ List.replicate (64 - K.length) 0)
  else blockOfBytes ((sha256 K).toList ++ List.replicate 32 0)

/-- HMAC(K, M) (R120, R127). -/
def hmac (K M : List Byte) : Vector Byte 32 :=
  sha256 (xorPad (keyBlock K) Config.opadByte ++
    (sha256 (xorPad (keyBlock K) Config.ipadByte ++ M)).toList)

end Sys2Proof.Machine
end

