-- ==== Sys2Proof/Machine/PhaseTable.lean ====
section
/-! DEFINITION. The phase table of R140 as data, transcribed from the table itself and not from the meanings. -/

namespace Sys2Proof.Machine

/-- An entry of the table of R140. -/
inductive PhaseEntry where
  /-- Normal completion, with this phase after. -/
  | after (p : Phase)
  /-- This phase after, or F(LENOVF). -/
  | afterOrLenovf (p : Phase)
  /-- F(c): the command raises Fault(c). -/
  | raises (c : Cause)
  /-- `ign`: the word is ignored, the phase stays FAULT. -/
  | ignored
  deriving DecidableEq, Repr

/-- A row of the table, its columns in the order IDLE, HASH, KEY, MSG, DONE, FAULT. -/
def tableRow (idle hash key msg done fault : PhaseEntry) : Phase → PhaseEntry
  | .idle => idle
  | .hash => hash
  | .key => key
  | .msg => msg
  | .done => done
  | .fault => fault

/-- The phase table (R140); `none` is the ILLEGAL word. -/
def phaseTable : Option Instr → Phase → PhaseEntry
  | some .nop => tableRow (.after .idle) (.after .hash) (.after .key) (.after .msg) (.after .done) (.after .fault)
  | some .clr => tableRow (.after .idle) (.after .idle) (.after .idle) (.after .idle) (.after .idle) (.after .idle)
  | some .rdst => tableRow (.after .idle) (.after .hash) (.after .key) (.after .msg) (.after .done) (.after .fault)
  | some .hstart => tableRow (.after .hash) (.raises .seq) (.raises .seq) (.raises .seq) (.after .hash) .ignored
  | some .kstart => tableRow (.after .key) (.raises .seq) (.raises .seq) (.raises .seq) (.after .key) .ignored
  | some (.push _) => tableRow (.raises .seq) (.afterOrLenovf .hash) (.afterOrLenovf .key) (.afterOrLenovf .msg) (.raises .seq) .ignored
  | some .kend => tableRow (.raises .seq) (.raises .seq) (.after .msg) (.raises .seq) (.raises .seq) .ignored
  | some .final => tableRow (.raises .seq) (.after .done) (.raises .seq) (.after .done) (.raises .seq) .ignored
  | some (.rdw _) => tableRow (.raises .seq) (.raises .seq) (.raises .seq) (.raises .seq) (.after .done) .ignored
  | some (.rdb _) => tableRow (.raises .seq) (.raises .seq) (.raises .seq) (.raises .seq) (.after .done) .ignored
  | none => tableRow (.raises .illcmd) (.raises .illcmd) (.raises .illcmd) (.raises .illcmd) (.raises .illcmd) .ignored

end Sys2Proof.Machine
end

