-- ==== Sys2Proof/Safety.lean ====
section
/-! DEFINITION. What a good state and a good run are: the invariants of R32, the end of a run (R216), and the words
in which claims about command sequences are said. -/

namespace Sys2Proof.Machine

/-- The invariants (a) to (i) of R32. -/
structure Arch.Inv (a : Arch) : Prop where
  /-- (a) -/
  phase_legal : a.phase.code ∈ [0, 1, 2, 3, 4, 7]
  /-- (b) -/
  errcode_iff_fault : a.errcode ≠ .none ↔ a.phase = .fault
  /-- (b) -/
  errcode_legal : a.errcode ≠ .none → a.errcode.code ∈ [1, 2, 3]
  /-- (c) -/
  len_le : a.len.toNat ≤ 2 ^ 61 - 1
  /-- (d) -/
  rest_clear : a.phase = .idle ∨ a.phase = .done ∨ a.phase = .fault →
    a.buf = zeroBlock ∧ a.k0 = zeroBlock ∧ a.len = 0
  /-- (e) -/
  chain_clear : a.phase = .idle ∨ a.phase = .fault → a.h = zeroChain
  /-- (f) -/
  hash_no_key : a.phase = .hash → a.k0 = zeroBlock
  /-- (g) -/
  buf_tail : a.phase = .hash ∨ a.phase = .key ∨ a.phase = .msg →
    ∀ j : Fin 64, a.len.toNat % 64 ≤ j.val → a.buf[j.val] = 0
  /-- (h) -/
  key_tail : a.phase = .key → ∀ j : Fin 64, min a.len.toNat 64 ≤ j.val → a.k0[j.val] = 0
  /-- (i) -/
  msg_len : a.phase = .msg → 64 ≤ a.len.toNat

/-- How a run stands after its last step (R216). -/
inductive Verdict where
  /-- PHASE = DONE: the run has produced the digest DG. -/
  | produced
  /-- PHASE = FAULT: the run has failed and has produced nothing. -/
  | failed
  /-- Any other phase. -/
  | incomplete
  deriving DecidableEq, Repr

/-- The verdict on a state at the end of a run (R216). -/
def verdict (a : Arch) : Verdict :=
  match a.phase with
  | .done => .produced
  | .fault => .failed
  | .idle | .hash | .key | .msg => .incomplete

/-- The words of a command sequence, as the host sends them. -/
def commands (is : List Instr) : List HostEvent := is.map fun i => .command (encode i)

/-- The state with exactly these events waiting. -/
def State.sending (s : State) (es : List HostEvent) : State := { s with inbox := es }

/-- The machine run over every event that waits: one step each (R219). -/
def runInbox (s : State) : Result := Host.Core.run core s.inbox.length s

/-- A command with its data byte erased. -/
def eraseByte : Instr → Instr
  | .push _ => .push 0
  | i => i

/-- What of an event may steer the core: everything but the value of a pushed byte (R184). -/
def HostEvent.shape : HostEvent → Option (Option Instr)
  | .reset => none
  | .command cw => some ((decode cw).map eraseByte)

/-- A NOP or an RDST, which a host may insert anywhere (R213). -/
def HostEvent.quiet : HostEvent → Bool
  | .reset => false
  | .command cw => decode cw == some .nop || decode cw == some .rdst

/-- A reset or a CLR: the only ways out of phase FAULT (R189). -/
def HostEvent.clears : HostEvent → Bool
  | .reset => true
  | .command cw => decode cw == some .clr

end Sys2Proof.Machine
end

