-- ==== Sys2Proof/WellFormed.lean ====
section
/-! DEFINITION. Which command words are legal, read from the opcode table of R73 as masks and matches,
independently of the decoder; and the well-formedness of a decoded command. -/

namespace Sys2Proof

/-- One row of the table of R73: a word is this command exactly when `word and mask = pattern`. -/
structure OpcodeRow where
  mnemonic : String
  pattern : Word
  mask : Word
  /-- How many words the row has (R73: 7 rows of format Z, 256 words of PUSH, 8 of RDW, 32 of RDB). -/
  words : Nat
  deriving DecidableEq, Repr

/-- The opcode map, R73, in the table's order. -/
def opcodeTable : List OpcodeRow :=
  [ ⟨"NOP",    0x00000000, 0xFFFFFFFF, 1⟩,
    ⟨"CLR",    0x01000000, 0xFFFFFFFF, 1⟩,
    ⟨"RDST",   0x02000000, 0xFFFFFFFF, 1⟩,
    ⟨"HSTART", 0x10000000, 0xFFFFFFFF, 1⟩,
    ⟨"KSTART", 0x11000000, 0xFFFFFFFF, 1⟩,
    ⟨"KEND",   0x12000000, 0xFFFFFFFF, 1⟩,
    ⟨"FINAL",  0x13000000, 0xFFFFFFFF, 1⟩,
    ⟨"PUSH",   0x20000000, 0xFFFFFF00, 256⟩,
    ⟨"RDW",    0x30000000, 0xFFFFFFF8, 8⟩,
    ⟨"RDB",    0x31000000, 0xFFFFFFE0, 32⟩ ]

/-- The word matches the row (R73). -/
def OpcodeRow.accepts (r : OpcodeRow) (cw : Word) : Bool := cw &&& r.mask == r.pattern

/-- A well-formed command word: one that matches some row; every other word is ILLEGAL (R74, R75). -/
def legalWord (cw : Word) : Bool := opcodeTable.any (·.accepts cw)

/-- A decoded command is well-formed for every value of its operand: "Every value of each field is legal" (R72),
and the operand types have no value outside the field. -/
def Instr.wf : Instr → Bool
  | .nop | .clr | .rdst | .hstart | .kstart | .kend | .final => true
  | .push imm8 => imm8.toNat ≤ 255
  | .rdw idx3 => idx3.toNat ≤ 7
  | .rdb idx5 => idx5.toNat ≤ 31

end Sys2Proof
end

