-- ==== Sys2Proof/Certificates/Slice0/Obligations.lean ====
section
/-! DEFINITION. The statements about the model, each from the rules its docstring cites. -/

section
open Sys2Proof Sys2Proof.Machine

/-! ### Reset and the boundary -/

/-- R33: after reset every element has the value of the table, the STATUS view and both flags are zero, and CLR
writes the same values. -/
def Obligations.ResetValues : Prop :=
  (∀ i : Fin 8, State.reset.arch.h[i.val] = 0x00000000) ∧
  (∀ j : Fin 64, State.reset.arch.buf[j.val] = 0x00) ∧
  (∀ j : Fin 64, State.reset.arch.k0[j.val] = 0x00) ∧
  State.reset.arch.len = 0 ∧ State.reset.arch.phase = .idle ∧ State.reset.arch.errcode = .none ∧
  status State.reset.arch = 0x00000000 ∧
  flagDV State.reset.arch.phase = 0 ∧ flagERR State.reset.arch.phase = 0 ∧
  ∀ s : State, ∃ t, exec .clr s = .next t ∧ t.arch = State.reset.arch

/-- R210, R76: a reset is a step of its own, available in every state; it writes the reset values, takes one event
and gives no response. That the later events keep waiting is the model's choice (log entry 9). -/
def Obligations.ResetEvent : Prop :=
  ∀ (s : State) (rest : List HostEvent), s.inbox = .reset :: rest →
    step s = .next { arch := State.reset.arch, inbox := rest, outbox := s.outbox }

/-- The model's choice (log entry 3), in the sense of R215: with no host event the state is held. -/
def Obligations.IdleHoldsState : Prop :=
  ∀ s : State, s.inbox = [] → step s = .next s

/-- R6, R74: a waiting command word that decodes to `i` is taken and `i` is executed on the rest of the state. -/
def Obligations.StepRunsDecoded : Prop :=
  ∀ (s : State) (cw : Word) (rest : List HostEvent) (i : Instr),
    s.inbox = .command cw :: rest → decode cw = some i → i.wf = true →
    step s = exec i { s with inbox := rest }

/-- R6, R76, R195: every command word in every state has a next state and gives exactly one response word. The
clauses on what the spec has no step for are the model's choice: a step with no event has a next state, with the same
outbox (log entry 3), the events behind the oldest keep waiting, after a reset too, and a reset leaves the responses
already given (log entries 1, 2 and 9). -/
def Obligations.StepTotal : Prop :=
  ∀ s : State, ∃ t, step s = .next t ∧ t.inbox = s.inbox.tail ∧
    match s.inbox.head? with
    | some (.command _) => ∃ w : Word, t.outbox = s.outbox ++ [w]
    | some .reset => t.outbox = s.outbox
    | none => t.outbox = s.outbox

/-- R59: commands take effect one at a time in the host's order. The run over `first` has a result that the events
after it cannot change, and the run over `first ++ later` goes on from that result. -/
def Obligations.RunInIssueOrder : Prop :=
  ∀ (s : State) (first : List HostEvent), ∃ t,
    runInbox (s.sending first) = .next t ∧ t.inbox = [] ∧
    ∀ later : List HostEvent,
      Host.Core.run core first.length (s.sending (first ++ later)) = .next (t.sending later) ∧
      runInbox (s.sending (first ++ later)) = runInbox (t.sending later)

/-! ### Encoding -/

/-- The encoding vectors of 95_test_vectors.md section 2, legal and illegal. -/
def Obligations.SpecWordsDecode : Prop :=
  decode 0x00000000 = some .nop ∧ decode 0x01000000 = some .clr ∧ decode 0x02000000 = some .rdst ∧
  decode 0x10000000 = some .hstart ∧ decode 0x11000000 = some .kstart ∧ decode 0x12000000 = some .kend ∧
  decode 0x13000000 = some .final ∧
  decode 0x2000006B = some (.push 0x6B) ∧ decode 0x200000FF = some (.push 0xFF) ∧
  decode 0x30000007 = some (.rdw 7) ∧ decode 0x3100001F = some (.rdb 31) ∧
  decode 0x20000100 = none ∧ decode 0x20800000 = none ∧ decode 0x30000008 = none ∧
  decode 0x31000020 = none ∧ decode 0x13000001 = none ∧ decode 0x00000001 = none ∧
  decode 0x03000000 = none ∧ decode 0x14000000 = none ∧ decode 0x21000000 = none ∧
  decode 0x32000000 = none ∧ decode 0x80000000 = none ∧ decode 0xFFFFFFFF = none

/-- R72 to R74: decoding and encoding are inverse to each other, for every command and every operand, and for every
legal word. -/
def Obligations.DecodeEncodeAgree : Prop :=
  (∀ i : Instr, decode (encode i) = some i) ∧
  ∀ (cw : Word) (i : Instr), decode cw = some i → encode i = cw

/-- R73: a word decodes to the command of a row exactly when `(cw and mask) = match`; no word matches two rows; each
row has its number of words; exactly 303 words are legal. -/
def Obligations.OpcodeMap : Prop :=
  (∀ r ∈ opcodeTable, ∀ cw : Word,
    (∃ i, decode cw = some i ∧ i.mnemonic = r.mnemonic) ↔ cw &&& r.mask = r.pattern) ∧
  opcodeTable.Pairwise (fun r q => ∀ cw : Word, ¬ (cw &&& r.mask = r.pattern ∧ cw &&& q.mask = q.pattern)) ∧
  (∀ r ∈ opcodeTable, ∃ ws : List Word, ws.Nodup ∧ ws.length = r.words ∧
    ∀ cw, cw ∈ ws ↔ cw &&& r.mask = r.pattern) ∧
  ∃ ws : List Word, ws.Nodup ∧ ws.length = 303 ∧ ∀ cw, cw ∈ ws ↔ (decode cw).isSome = true

/-- R72: the operands are the low bits of the word, unsigned, and every value of each is legal. -/
def Obligations.OperandFields : Prop :=
  (∀ (cw : Word) (b : Byte), decode cw = some (.push b) → b.toNat = cw.toNat % 256) ∧
  (∀ (cw : Word) (i : BitVec 3), decode cw = some (.rdw i) → i.toNat = cw.toNat % 8) ∧
  (∀ (cw : Word) (i : BitVec 5), decode cw = some (.rdb i) → i.toNat = cw.toNat % 32) ∧
  (∀ b : Byte, decode (0x20000000 + b.setWidth 32) = some (.push b)) ∧
  (∀ i : BitVec 3, decode (0x30000000 + i.setWidth 32) = some (.rdw i)) ∧
  ∀ i : BitVec 5, decode (0x31000000 + i.setWidth 32) = some (.rdb i)

/-- R181: a word that matches no row raises Fault(ILLCMD) in every phase but FAULT, where nothing is raised. -/
def Obligations.IllegalWord : Prop :=
  ∀ (s : State) (cw : Word) (rest : List HostEvent),
    s.inbox = .command cw :: rest → (∀ r ∈ opcodeTable, cw &&& r.mask ≠ r.pattern) →
    (s.arch.phase ≠ .fault → step s = .next
      { arch := faultEntry .illcmd, inbox := rest, outbox := s.outbox ++ [0] }) ∧
    (s.arch.phase = .fault → step s = .next
      { arch := s.arch, inbox := rest, outbox := s.outbox ++ [0] })

/-- R77: assembling the text of a command gives that command back. -/
def Obligations.AssembleText : Prop :=
  ∀ i : Instr, assembleLine (asmText i) = some [i]

/-- R78, R9: each of the six pseudo-instructions is its expansion, read from its line with every byte string and every
allowed text; a text with a character outside 0x20 to 0x7E is refused, and the quote cannot stand in one. -/
def Obligations.PseudoExpansions : Prop :=
  (∀ bs : List Byte, assembleLine (['P', 'U', 'S', 'H', 'X', ' ', '"'] ++ hexBytes bs ++ ['"']) =
    some (bs.map Instr.push)) ∧
  (∀ text : List Char, (∀ c ∈ text, 0x20 ≤ c.toNat ∧ c.toNat ≤ 0x7E ∧ c ≠ '\'') →
    assembleLine (['P', 'U', 'S', 'H', 'S', ' ', '\''] ++ text ++ ['\'']) =
      some (text.map fun c => Instr.push (BitVec.ofNat 8 c.toNat))) ∧
  (∀ text : List Char, '\'' ∉ text → (∃ c ∈ text, c.toNat < 0x20 ∨ 0x7E < c.toNat) →
    assembleLine (['P', 'U', 'S', 'H', 'S', ' ', '\''] ++ text ++ ['\'']) = none) ∧
  (∀ text : List Char, expandPushs text = none ↔ ∃ c ∈ text, c.toNat < 0x20 ∨ 0x7E < c.toNat ∨ c = '\'') ∧
  (∀ M : List Byte, assembleLine (['H', 'A', 'S', 'H', ' ', '"'] ++ hexBytes M ++ ['"']) =
    some (.hstart :: (M.map Instr.push ++ [.final]))) ∧
  (∀ K M : List Byte,
    assembleLine (['H', 'M', 'A', 'C', ' ', '"'] ++ hexBytes K ++ ['"', ',', ' ', '"'] ++ hexBytes M ++ ['"']) =
      some (.kstart :: (K.map Instr.push ++ .kend :: (M.map Instr.push ++ [.final])))) ∧
  (∃ is : List Instr, assembleLine ['R', 'D', 'D', 'G'] = some is ∧ is.length = 32 ∧
    ∀ i : Fin 32, is[i.val]? = some (.rdb (BitVec.ofNat 5 i.val))) ∧
  assembleLine ['R', 'D', 'D', 'W'] = some [.rdw 0, .rdw 1, .rdw 2, .rdw 3, .rdw 4, .rdw 5, .rdw 6, .rdw 7] ∧
  assembleLine ['P', 'U', 'S', 'H', 'X', ' ', '"', '6', 'B', '6', '5', '7', '9', '"'] =
    some [.push 0x6B, .push 0x65, .push 0x79] ∧
  assembleLine ['P', 'U', 'S', 'H', 'X', ' ', '"', '"'] = some [] ∧
  (∀ M, expandHash M = .hstart :: (M.map Instr.push ++ [.final])) ∧
  (∀ K M, expandHmac K M = .kstart :: (K.map Instr.push ++ .kend :: (M.map Instr.push ++ [.final]))) ∧
  expandRddw = [.rdw 0, .rdw 1, .rdw 2, .rdw 3, .rdw 4, .rdw 5, .rdw 6, .rdw 7] ∧
  expandRddg.length = 32 ∧ ∀ i : Fin 32, expandRddg[i.val]? = some (.rdb (BitVec.ofNat 5 i.val))

/-! ### The commands -/

/-- R163: in any state NOP leaves everything unchanged and answers 0. -/
def Obligations.NopResult : Prop :=
  encode .nop = 0x00000000 ∧
  ∀ s : State, exec .nop s = .next { s with outbox := s.outbox ++ [0x00000000] }

/-- R164: in every phase CLR writes all six elements; it is the only command that leaves phase FAULT, and the only one
that abandons an operation in progress without a fault: any other command raises a fault, keeps the operation (NOP and
RDST change nothing, PUSH appends its byte to the stream), takes it from KEY on to MSG (KEND), or completes it (FINAL).
So no command restarts it. -/
def Obligations.ClrResult : Prop :=
  encode .clr = 0x01000000 ∧
  (∀ s : State, exec .clr s = .next
    { arch := { h := Vector.replicate 8 0x00000000, buf := Vector.replicate 64 0x00,
                k0 := Vector.replicate 64 0x00, len := 0, phase := .idle, errcode := .none },
      inbox := s.inbox, outbox := s.outbox ++ [0x00000000] }) ∧
  (∀ (i : Instr) (s t : State), s.arch.phase = .fault → exec i s = .next t → t.arch.phase ≠ .fault → i = .clr) ∧
  ∀ (i : Instr) (s t : State), s.arch.phase = .hash ∨ s.arch.phase = .key ∨ s.arch.phase = .msg →
    exec i s = .next t →
    i = .clr ∨ (∃ c, t.arch = faultEntry c) ∨
    ((i = .nop ∨ i = .rdst) ∧ t.arch = s.arch) ∨
    (∃ b, i = .push b ∧ t.arch = pushByte b s.arch ∧ t.arch.phase = s.arch.phase ∧ t.arch.len = s.arch.len + 1) ∨
    (i = .kend ∧ s.arch.phase = .key ∧ t.arch.phase = .msg) ∨
    (i = .final ∧ s.arch.phase ≠ .key ∧ t.arch.phase = .done)

/-- R162, R27: in every phase RDST changes nothing and answers the STATUS word with its fields; in a state that
meets the invariants of R32 the answer is one of eight values. -/
def Obligations.RdstResult : Prop :=
  encode .rdst = 0x02000000 ∧
  ∀ s : State, exec .rdst s = .next { s with outbox := s.outbox ++ [status s.arch] } ∧
    (status s.arch).extractLsb' 0 3 = s.arch.phase.code ∧
    (status s.arch).extractLsb' 3 1 = 0 ∧
    (status s.arch).extractLsb' 4 4 = s.arch.errcode.code ∧
    ((status s.arch).extractLsb' 8 1 = 1 ↔ s.arch.phase = .done) ∧
    ((status s.arch).extractLsb' 9 1 = 1 ↔ s.arch.phase = .fault) ∧
    (status s.arch).extractLsb' 10 22 = 0 ∧
    (s.arch.Inv → status s.arch ∈ [0x00000000, 0x00000001, 0x00000002, 0x00000003, 0x00000104,
      0x00000217, 0x00000227, 0x00000237])

/-- R141: HSTART, with every phase: legal in IDLE and DONE, SEQ in HASH, KEY and MSG, ignored in FAULT. -/
def Obligations.HstartResult : Prop :=
  encode .hstart = 0x10000000 ∧
  ∀ s : State,
    (s.arch.phase = .idle ∨ s.arch.phase = .done → exec .hstart s = .next
      { s with arch := { s.arch with h := initialHash, buf := zeroBlock, len := 0, k0 := zeroBlock, phase := .hash },
               outbox := s.outbox ++ [0] }) ∧
    (s.arch.phase = .hash ∨ s.arch.phase = .key ∨ s.arch.phase = .msg → exec .hstart s = .next
      { s with arch := faultEntry .seq, outbox := s.outbox ++ [0] }) ∧
    (s.arch.phase = .fault → exec .hstart s = .next { s with outbox := s.outbox ++ [0] })

/-- R142: KSTART, with every phase. -/
def Obligations.KstartResult : Prop :=
  encode .kstart = 0x11000000 ∧
  ∀ s : State,
    (s.arch.phase = .idle ∨ s.arch.phase = .done → exec .kstart s = .next
      { s with arch := { s.arch with h := initialHash, buf := zeroBlock, len := 0, k0 := zeroBlock, phase := .key },
               outbox := s.outbox ++ [0] }) ∧
    (s.arch.phase = .hash ∨ s.arch.phase = .key ∨ s.arch.phase = .msg → exec .kstart s = .next
      { s with arch := faultEntry .seq, outbox := s.outbox ++ [0] }) ∧
    (s.arch.phase = .fault → exec .kstart s = .next { s with outbox := s.outbox ++ [0] })

/-- R143: PUSH, with every phase. Accepted, it stores the byte at LEN mod 64 of BUF, in phase KEY also at LEN of K0
while LEN < 64, adds one to LEN, and compresses exactly when the byte completes a block; nothing else changes. -/
def Obligations.PushResult : Prop :=
  (∀ b : Byte, encode (.push b) = 0x20000000 + b.setWidth 32) ∧
  ∀ (s : State) (b : Byte),
    (s.arch.phase = .hash ∨ s.arch.phase = .key ∨ s.arch.phase = .msg → s.arch.len ≠ 0x1FFFFFFFFFFFFFFF →
      exec (.push b) s = .next
        { s with
          arch :=
            { h := if s.arch.len.toNat % 64 = 63
                then compress s.arch.h (s.arch.buf.set (s.arch.len.toNat % 64) b (Nat.mod_lt _ (by decide)))
                else s.arch.h,
              buf := if s.arch.len.toNat % 64 = 63 then zeroBlock
                else s.arch.buf.set (s.arch.len.toNat % 64) b (Nat.mod_lt _ (by decide)),
              k0 := if lt : s.arch.phase = .key ∧ s.arch.len.toNat < 64
                then s.arch.k0.set s.arch.len.toNat b lt.2 else s.arch.k0,
              len := s.arch.len + 1,
              phase := s.arch.phase,
              errcode := s.arch.errcode },
          outbox := s.outbox ++ [0] }) ∧
    (s.arch.phase = .hash ∨ s.arch.phase = .key ∨ s.arch.phase = .msg → s.arch.len = 0x1FFFFFFFFFFFFFFF →
      exec (.push b) s = .next { s with arch := faultEntry .lenovf, outbox := s.outbox ++ [0] }) ∧
    (s.arch.phase = .idle ∨ s.arch.phase = .done →
      exec (.push b) s = .next { s with arch := faultEntry .seq, outbox := s.outbox ++ [0] }) ∧
    (s.arch.phase = .fault → exec (.push b) s = .next { s with outbox := s.outbox ++ [0] })

/-- R144, R123, R124: KEND, with every phase. The key block is K0, or the digest of the key hash zero-extended when
more than 64 bytes were pushed; H is the compression of IV with (K0 xor ipad). -/
def Obligations.KendResult : Prop :=
  encode .kend = 0x12000000 ∧
  ∀ s : State,
    (s.arch.phase = .key → ∀ kb : Block,
      kb = (if 64 < s.arch.len.toNat
        then blockOfBytes ((digestBytes (finish s.arch).h).toList ++ List.replicate 32 0) else s.arch.k0) →
      exec .kend s = .next
        { s with
          arch := { h := compress initialHash (blockOfBytes (kb.toList.map (· ^^^ 0x36))),
                    buf := zeroBlock, k0 := kb, len := 64, phase := .msg, errcode := s.arch.errcode },
          outbox := s.outbox ++ [0] }) ∧
    (s.arch.phase = .idle ∨ s.arch.phase = .hash ∨ s.arch.phase = .msg ∨ s.arch.phase = .done →
      exec .kend s = .next { s with arch := faultEntry .seq, outbox := s.outbox ++ [0] }) ∧
    (s.arch.phase = .fault → exec .kend s = .next { s with outbox := s.outbox ++ [0] })

/-- R145, R125: FINAL, with every phase. In HASH the digest is that of Finish; in MSG the outer hash covers the block
(K0 xor opad) and the block: inner digest, 80, 23 zero bytes, 00 00 00 00 00 00 03 00. -/
def Obligations.FinalResult : Prop :=
  encode .final = 0x13000000 ∧
  ∀ s : State,
    (s.arch.phase = .hash → exec .final s = .next
      { s with
        arch := { h := (finish s.arch).h, buf := zeroBlock, k0 := zeroBlock, len := 0, phase := .done,
                  errcode := s.arch.errcode },
        outbox := s.outbox ++ [0] }) ∧
    (s.arch.phase = .msg → exec .final s = .next
      { s with
        arch := { h := compress (compress initialHash (blockOfBytes (s.arch.k0.toList.map (· ^^^ 0x5C))))
                    (blockOfBytes ((digestBytes (finish s.arch).h).toList ++ [0x80] ++ List.replicate 23 0 ++
                      [0x00, 0x00, 0x00, 0x00, 0x00, 0x00, 0x03, 0x00])),
                  buf := zeroBlock, k0 := zeroBlock, len := 0, phase := .done, errcode := s.arch.errcode },
        outbox := s.outbox ++ [0] }) ∧
    (s.arch.phase = .idle ∨ s.arch.phase = .key ∨ s.arch.phase = .done →
      exec .final s = .next { s with arch := faultEntry .seq, outbox := s.outbox ++ [0] }) ∧
    (s.arch.phase = .fault → exec .final s = .next { s with outbox := s.outbox ++ [0] })

/-- R160: RDW, with every phase. In DONE it answers H[idx3], which is four consecutive bytes of DG, and changes
nothing. -/
def Obligations.RdwResult : Prop :=
  (∀ i : BitVec 3, encode (.rdw i) = 0x30000000 + i.setWidth 32) ∧
  ∀ (s : State) (i : BitVec 3),
    (s.arch.phase = .done →
      exec (.rdw i) s = .next { s with outbox := s.outbox ++ [s.arch.h[i.toNat]'i.isLt] } ∧
      s.arch.h[i.toNat]'i.isLt =
        digestByte s.arch.h (wordAddr i 0) ++ digestByte s.arch.h (wordAddr i 1) ++
        digestByte s.arch.h (wordAddr i 2) ++ digestByte s.arch.h (wordAddr i 3)) ∧
    (s.arch.phase = .idle ∨ s.arch.phase = .hash ∨ s.arch.phase = .key ∨ s.arch.phase = .msg →
      exec (.rdw i) s = .next { s with arch := faultEntry .seq, outbox := s.outbox ++ [0] }) ∧
    (s.arch.phase = .fault → exec (.rdw i) s = .next { s with outbox := s.outbox ++ [0] })

/-- R161: RDB, with every phase. In DONE it answers DG[idx5] zero-extended and changes nothing. -/
def Obligations.RdbResult : Prop :=
  (∀ i : BitVec 5, encode (.rdb i) = 0x31000000 + i.setWidth 32) ∧
  ∀ (s : State) (i : BitVec 5),
    (s.arch.phase = .done →
      exec (.rdb i) s = .next { s with outbox := s.outbox ++ [BitVec.ofNat 32 (digestByte s.arch.h i.toFin).toNat] }) ∧
    (s.arch.phase = .idle ∨ s.arch.phase = .hash ∨ s.arch.phase = .key ∨ s.arch.phase = .msg →
      exec (.rdb i) s = .next { s with arch := faultEntry .seq, outbox := s.outbox ++ [0] }) ∧
    (s.arch.phase = .fault → exec (.rdb i) s = .next { s with outbox := s.outbox ++ [0] })

/-- R55: the words RDW answers and the bytes RDB answers agree, lowest address first in the most significant byte. -/
def Obligations.ReadoutViewsAgree : Prop :=
  ∀ (s : State) (i : BitVec 3), s.arch.phase = .done → ∃ b0 b1 b2 b3 : Byte,
    exec (.rdw i) s = .next { s with outbox := s.outbox ++ [b0 ++ b1 ++ b2 ++ b3] } ∧
    exec (.rdb (BitVec.ofNat 5 (4 * i.toNat))) s = .next { s with outbox := s.outbox ++ [b0.setWidth 32] } ∧
    exec (.rdb (BitVec.ofNat 5 (4 * i.toNat + 1))) s = .next { s with outbox := s.outbox ++ [b1.setWidth 32] } ∧
    exec (.rdb (BitVec.ofNat 5 (4 * i.toNat + 2))) s = .next { s with outbox := s.outbox ++ [b2.setWidth 32] } ∧
    exec (.rdb (BitVec.ofNat 5 (4 * i.toNat + 3))) s = .next { s with outbox := s.outbox ++ [b3.setWidth 32] }

/-! ### Faults and the phase table -/

/-- R182: exactly these commands in these phases raise Fault(SEQ); NOP, CLR and RDST never do. -/
def Obligations.SeqFaults : Prop :=
  ∀ (i : Instr) (s : State),
    (exec i s = .next { s with arch := faultEntry .seq, outbox := s.outbox ++ [0] } ∧ s.arch.phase ≠ .fault) ↔
    ((i = .hstart ∨ i = .kstart) ∧ (s.arch.phase = .hash ∨ s.arch.phase = .key ∨ s.arch.phase = .msg)) ∨
    ((∃ b, i = .push b) ∧ (s.arch.phase = .idle ∨ s.arch.phase = .done)) ∨
    (i = .kend ∧ (s.arch.phase = .idle ∨ s.arch.phase = .hash ∨ s.arch.phase = .msg ∨ s.arch.phase = .done)) ∨
    (i = .final ∧ (s.arch.phase = .idle ∨ s.arch.phase = .key ∨ s.arch.phase = .done)) ∨
    (((∃ k, i = .rdw k) ∨ ∃ k, i = .rdb k) ∧
      (s.arch.phase = .idle ∨ s.arch.phase = .hash ∨ s.arch.phase = .key ∨ s.arch.phase = .msg))

/-- R180, R185, R186: when a command word takes the core into FAULT, the state after is the fault entry and nothing
else: everything zero, the code of the cause, no other trace of the command; the cause is ILLCMD for an illegal word,
LENOVF for a PUSH at LEN_MAX in HASH, KEY or MSG, and SEQ otherwise. -/
def Obligations.FaultEntry : Prop :=
  ∀ (s t : State) (cw : Word) (rest : List HostEvent),
    s.inbox = .command cw :: rest → s.arch.phase ≠ .fault → step s = .next t → t.arch.phase = .fault →
    ∃ c : Cause,
      t = { arch := { h := Vector.replicate 8 0x00000000, buf := Vector.replicate 64 0x00,
                      k0 := Vector.replicate 64 0x00, len := 0, phase := .fault, errcode := .of c },
            inbox := rest, outbox := s.outbox ++ [0x00000000] } ∧
      (c = .illcmd ↔ decode cw = none) ∧
      (c = .lenovf ↔ (∃ b, decode cw = some (.push b)) ∧
        (s.arch.phase = .hash ∨ s.arch.phase = .key ∨ s.arch.phase = .msg) ∧
        s.arch.len = 0x1FFFFFFFFFFFFFFF)

/-- R183: LEN_MAX can be reached by a PUSH but not passed. -/
def Obligations.LenMaxReachedNotPassed : Prop :=
  ∀ (s : State) (b : Byte), s.arch.phase = .hash ∨ s.arch.phase = .key ∨ s.arch.phase = .msg →
    (s.arch.len.toNat = 2 ^ 61 - 2 → ∃ t, exec (.push b) s = .next t ∧
      t.arch.phase = s.arch.phase ∧ t.arch.len.toNat = 2 ^ 61 - 1) ∧
    (s.arch.len.toNat = 2 ^ 61 - 1 → exec (.push b) s = .next
      { s with arch := faultEntry .lenovf, outbox := s.outbox ++ [0] })

/-- R188: in phase FAULT a word is examined only for being CLR, RDST or NOP; CLR gives the reset state, RDST the status
with ERR = 1, and every other word, NOP and illegal words included, changes nothing and answers 0. -/
def Obligations.FaultPhase : Prop :=
  ∀ (s : State) (cw : Word) (rest : List HostEvent),
    s.inbox = .command cw :: rest → s.arch.phase = .fault →
    (decode cw = some .clr → step s = .next
      { arch := State.reset.arch, inbox := rest, outbox := s.outbox ++ [0] }) ∧
    (decode cw = some .rdst → step s = .next
      { arch := s.arch, inbox := rest, outbox := s.outbox ++ [status s.arch] } ∧
      (status s.arch).extractLsb' 9 1 = 1 ∧ (status s.arch).extractLsb' 4 4 = s.arch.errcode.code) ∧
    (decode cw ≠ some .clr → decode cw ≠ some .rdst → step s = .next
      { arch := s.arch, inbox := rest, outbox := s.outbox ++ [0] })

/-- R188, R190: a fault is sticky over any number of commands: with no CLR and no reset among them, the state and the
recorded cause do not change, and each word answers 0 unless it is RDST. -/
def Obligations.FaultSticky : Prop :=
  ∀ (s : State) (es : List HostEvent), s.arch.phase = .fault → (∀ e ∈ es, e.clears = false) →
    ∃ out : List Word, out.length = es.length ∧
      runInbox (s.sending es) = .next { arch := s.arch, inbox := [], outbox := s.outbox ++ out } ∧
      ∀ (k : Nat) (cw : Word), es[k]? = some (.command cw) →
        out[k]? = some (if decode cw = some .rdst then status s.arch else 0)

/-- R189: the only exits from phase FAULT are CLR and reset, and both give the reset state. -/
def Obligations.FaultExits : Prop :=
  ∀ s t : State, s.arch.phase = .fault → step s = .next t → t.arch.phase ≠ .fault →
    (∃ e, s.inbox.head? = some e ∧ e.clears = true) ∧ t.arch = State.reset.arch

/-- R140: the phase table is what the step does, for every word in every phase. -/
def Obligations.PhaseTableHolds : Prop :=
  ∀ (s : State) (cw : Word) (rest : List HostEvent), s.inbox = .command cw :: rest →
    match phaseTable (decode cw) s.arch.phase with
    | .after p => ∃ t, step s = .next t ∧ t.arch.phase = p ∧ (p ≠ s.arch.phase → p ≠ .fault)
    | .afterOrLenovf p =>
      if s.arch.len = 0x1FFFFFFFFFFFFFFF
      then step s = .next { arch := faultEntry .lenovf, inbox := rest, outbox := s.outbox ++ [0] }
      else ∃ t, step s = .next t ∧ t.arch.phase = p
    | .raises c => step s = .next { arch := faultEntry c, inbox := rest, outbox := s.outbox ++ [0] }
    | .ignored => step s = .next { arch := s.arch, inbox := rest, outbox := s.outbox ++ [0] }

/-- R28: DV and ERR are functions of PHASE; a step sets DV only by FINAL, clears it only by HSTART, KSTART, CLR, reset
or fault entry; it sets ERR only by fault entry and clears it only by CLR or reset. -/
def Obligations.FlagRules : Prop :=
  (∀ p : Phase, (flagDV p = 1 ↔ p = .done) ∧ (flagERR p = 1 ↔ p = .fault)) ∧
  ∀ s t : State, step s = .next t →
    (flagDV s.arch.phase = 0 → flagDV t.arch.phase = 1 →
      ∃ cw, s.inbox.head? = some (.command cw) ∧ decode cw = some .final) ∧
    (flagDV s.arch.phase = 1 → flagDV t.arch.phase = 0 →
      (∃ c, t.arch = faultEntry c) ∨ s.inbox.head? = some .reset ∨
      ∃ cw, s.inbox.head? = some (.command cw) ∧
        (decode cw = some .hstart ∨ decode cw = some .kstart ∨ decode cw = some .clr)) ∧
    (flagERR s.arch.phase = 0 → flagERR t.arch.phase = 1 → ∃ c, t.arch = faultEntry c) ∧
    (flagERR s.arch.phase = 1 → flagERR t.arch.phase = 0 →
      ∃ e, s.inbox.head? = some e ∧ e.clears = true)

/-! ### Invariants -/

/-- R32: the invariants hold at reset. -/
def Obligations.InvAtReset : Prop := State.reset.arch.Inv

/-- R32: every step from any state that meets the invariants gives a state that meets them. -/
def Obligations.InvKeptByStep : Prop :=
  ∀ s t : State, s.arch.Inv → step s = .next t → t.arch.Inv

/-- R32: the invariants hold in every state reachable from reset by any sequence of commands and resets. -/
def Obligations.InvReachable : Prop :=
  ∀ es : List HostEvent, ∃ t, runInbox (State.reset.sending es) = .next t ∧ t.arch.Inv

/-! ### Confinement -/

/-- R128: whatever step leaves an HMAC operation, nothing of the key stays: K0, BUF and LEN are zero after it, and H is
zero too unless the step delivered a digest. -/
def Obligations.KeyErased : Prop :=
  ∀ s t : State, s.arch.phase = .key ∨ s.arch.phase = .msg → step s = .next t →
    t.arch.phase ≠ .key → t.arch.phase ≠ .msg →
    t.arch.k0 = zeroBlock ∧ t.arch.buf = zeroBlock ∧ t.arch.len = 0 ∧
    (t.arch.phase ≠ .done → t.arch.h = zeroChain)

/-- R36, R213: no step shows the host BUF, K0 or LEN in any phase, nor H outside phase DONE: two states that agree on
PHASE and ERRCODE, and in DONE on H, answer the same event alike. -/
def Obligations.ResponsesConfined : Prop :=
  ∀ (s u : State) (e : HostEvent) (rs ru : List HostEvent),
    s.inbox = e :: rs → u.inbox = e :: ru →
    s.arch.phase = u.arch.phase → s.arch.errcode = u.arch.errcode →
    (s.arch.phase = .done → s.arch.h = u.arch.h) →
    ∃ (s' u' : State) (out : List Word), step s = .next s' ∧ step u = .next u' ∧
      s'.outbox = s.outbox ++ out ∧ u'.outbox = u.outbox ++ out

/-- R184, R109: the values of pushed bytes never steer the core: two runs whose events differ only in pushed bytes, from
states that agree on PHASE, ERRCODE and LEN, end in states that agree on them, with as many responses. -/
def Obligations.DataNeverSteers : Prop :=
  ∀ s u : State,
    s.inbox.map HostEvent.shape = u.inbox.map HostEvent.shape →
    s.arch.phase = u.arch.phase → s.arch.errcode = u.arch.errcode → s.arch.len = u.arch.len →
    ∃ s' u' : State, runInbox s = .next s' ∧ runInbox u = .next u' ∧
      s'.arch.phase = u'.arch.phase ∧ s'.arch.errcode = u'.arch.errcode ∧ s'.arch.len = u'.arch.len ∧
      s'.outbox.length + u.outbox.length = u'.outbox.length + s.outbox.length

/-- R213, R214: NOP and RDST may be inserted anywhere: without them a run ends in the same architectural state. -/
def Obligations.QuietCommandsTransparent : Prop :=
  ∀ (s : State) (es : List HostEvent), ∃ t u : State,
    runInbox (s.sending es) = .next t ∧
    runInbox (s.sending (es.filter fun e => !e.quiet)) = .next u ∧ t.arch = u.arch

/-! ### The SHA-256 datapath -/

/-- R90: the word operations as arithmetic on unsigned numbers. -/
def Obligations.WordArithmetic : Prop :=
  (∀ x y : Word, (x + y).toNat = (x.toNat + y.toNat) % 2 ^ 32) ∧
  (∀ (n : Nat) (x : Word), 0 < n → n < 32 →
    (rotr n x).toNat = x.toNat / 2 ^ n + x.toNat % 2 ^ n * 2 ^ (32 - n)) ∧
  (∀ (n : Nat) (x : Word), 0 < n → n < 32 → (shr n x).toNat = x.toNat / 2 ^ n) ∧
  ∀ x : Word, (~~~x).toNat = 0xFFFFFFFF - x.toNat

/-- R91, R92: bit by bit, Ch chooses and Maj is the majority. -/
def Obligations.ChooseAndMajority : Prop :=
  ∀ (x y z : Word) (i : Nat),
    (ch x y z).getLsbD i = (if x.getLsbD i then y.getLsbD i else z.getLsbD i) ∧
    (maj x y z).getLsbD i =
      decide (2 ≤ (x.getLsbD i).toNat + (y.getLsbD i).toNat + (z.getLsbD i).toNat)

/-- R93 to R96: the four sigma functions, with the spec's examples. -/
def Obligations.SigmaFunctions : Prop :=
  (∀ x : Word, bsig0 x = x.rotateRight 2 ^^^ x.rotateRight 13 ^^^ x.rotateRight 22) ∧
  (∀ x : Word, bsig1 x = x.rotateRight 6 ^^^ x.rotateRight 11 ^^^ x.rotateRight 25) ∧
  (∀ x : Word, ssig0 x = x.rotateRight 7 ^^^ x.rotateRight 18 ^^^ x >>> 3) ∧
  (∀ x : Word, ssig1 x = x.rotateRight 17 ^^^ x.rotateRight 19 ^^^ x >>> 10) ∧
  bsig0 0x6A09E667 = 0xCE20B47E ∧ bsig0 0 = 0 ∧ bsig0 0xFFFFFFFF = 0xFFFFFFFF ∧
  bsig1 0x510E527F = 0x3587272B ∧ bsig1 0 = 0 ∧ bsig1 0xFFFFFFFF = 0xFFFFFFFF ∧
  ssig0 0x61626380 = 0x940E90EF ∧ ssig0 0 = 0 ∧ ssig0 0xFFFFFFFF = 0x1FFFFFFF ∧
  ssig1 0x00000018 = 0x000F0000 ∧ ssig1 0 = 0 ∧ ssig1 0xFFFFFFFF = 0x003FFFFF

/-- R97, R98: K[t] is the first 32 bits of the fractional part of the cube root of the (t+1)-th prime, IV[i] of the
square root of the (i+1)-th prime; 311 is the 64th prime. -/
def Obligations.ConstantsFromPrimes : Prop :=
  roundConstants.length = 64 ∧
  ((List.range 312).filter fun p => decide (Nat.Prime p)).length = 64 ∧
  (∀ (t p : Nat), ((List.range 312).filter fun p => decide (Nat.Prime p))[t]? = some p →
    ∃ q : Nat, q ^ 3 ≤ p * 2 ^ 96 ∧ p * 2 ^ 96 < (q + 1) ^ 3 ∧
      roundConstants[t]? = some (BitVec.ofNat 32 q)) ∧
  ∀ (i : Fin 8) (p : Nat), ((List.range 312).filter fun p => decide (Nat.Prime p))[i.val]? = some p →
    ∃ q : Nat, q ^ 2 ≤ p * 2 ^ 64 ∧ p * 2 ^ 64 < (q + 1) ^ 2 ∧ initialHash[i.val] = BitVec.ofNat 32 q

/-- R99, R51: the message schedule: sixteen big-endian words of the block, then the recurrence. -/
def Obligations.ScheduleRecurrence : Prop :=
  ∀ b : Block,
    (schedule b).length = 64 ∧
    (∀ t : Fin 16, ((schedule b).getD t.val 0).toNat =
      (b[4 * t.val]).toNat * 2 ^ 24 + (b[4 * t.val + 1]).toNat * 2 ^ 16 +
      (b[4 * t.val + 2]).toNat * 2 ^ 8 + (b[4 * t.val + 3]).toNat) ∧
    ∀ t : Nat, 16 ≤ t → t < 64 →
      (schedule b).getD t 0 = ssig1 ((schedule b).getD (t - 2) 0) + (schedule b).getD (t - 7) 0 +
        ssig0 ((schedule b).getD (t - 15) 0) + (schedule b).getD (t - 16) 0

/-- R100 to R102: Compress is 64 rounds from the chaining value, round t with K[t] and W[t], and the feed-forward
addition. -/
def Obligations.CompressRounds : Prop :=
  ∀ (hin : Chain) (b : Block), ∃ v : Nat → Work,
    v 0 = { a := hin[0], b := hin[1], c := hin[2], d := hin[3],
            e := hin[4], f := hin[5], g := hin[6], h := hin[7] } ∧
    (∀ t : Nat, t < 64 → ∀ t1 t2 : Word,
      t1 = (v t).h + bsig1 (v t).e + ch (v t).e (v t).f (v t).g + roundConstants.getD t 0 +
        (schedule b).getD t 0 →
      t2 = bsig0 (v t).a + maj (v t).a (v t).b (v t).c →
      v (t + 1) = { a := t1 + t2, b := (v t).a, c := (v t).b, d := (v t).c,
                    e := (v t).d + t1, f := (v t).e, g := (v t).f, h := (v t).g }) ∧
    compress hin b = #v[hin[0] + (v 64).a, hin[1] + (v 64).b, hin[2] + (v 64).c, hin[3] + (v 64).d,
      hin[4] + (v 64).e, hin[5] + (v 64).f, hin[6] + (v 64).g, hin[7] + (v 64).h]

/-- R29, R53, R106: DG[i] is byte i mod 4, most significant first, of H[i div 4], and DigestBytes is DG in order. -/
def Obligations.DigestByteOrder : Prop :=
  ∀ (h : Chain) (i : Fin 32),
    (digestBytes h)[i.val] = digestByte h i ∧
    (digestByte h i).toNat = (h[i.val / 4]).toNat / 2 ^ (24 - 8 * (i.val % 4)) % 256

/-- R52, R51: read back as big-endian words, the last eight bytes of a block that holds the length field are the 64-bit
number, and the bytes before are as they were. -/
def Obligations.LengthFieldPlaced : Prop :=
  ∀ (buf : Block) (v : BitVec 64),
    blockWord (putLength buf v) 14 ++ blockWord (putLength buf v) 15 = v ∧
    ∀ j : Fin 64, j.val < 56 → (putLength buf v)[j.val] = buf[j.val]

/-- R103: HInit writes H, BUF and LEN and nothing else. -/
def Obligations.HInitResult : Prop :=
  ∀ a : Arch, hInit a =
    { h := #v[0x6A09E667, 0xBB67AE85, 0x3C6EF372, 0xA54FF53A, 0x510E527F, 0x9B05688C, 0x1F83D9AB, 0x5BE0CD19],
      buf := Vector.replicate 64 0x00, k0 := a.k0, len := 0, phase := a.phase, errcode := a.errcode }

/-- R105: Finish compresses one padded block when fewer than 56 bytes wait, two otherwise; it clears BUF and LEN and
leaves K0, PHASE and ERRCODE. -/
def Obligations.FinishPadding : Prop :=
  ∀ (a : Arch) (r : Nat), r = a.len.toNat % 64 →
    (r < 56 → finish a =
      { a with
        h := compress a.h (blockOfBytes
          (a.buf.toList.take r ++ [0x80] ++ List.replicate (55 - r) 0 ++ be64 (8 * a.len))),
        buf := zeroBlock, len := 0 }) ∧
    (56 ≤ r → finish a =
      { a with
        h := compress (compress a.h (blockOfBytes
            (a.buf.toList.take r ++ [0x80] ++ List.replicate (63 - r) 0)))
          (blockOfBytes (List.replicate 56 0 ++ be64 (8 * a.len))),
        buf := zeroBlock, len := 0 })

/-- R107: the padding count is the least one, the padded message is whole blocks, and HInit, Absorb of each byte,
Finish from any state leave the digest SHA256(M), with BUF and LEN zero and K0, PHASE, ERRCODE unchanged. -/
def Obligations.Sha256Procedures : Prop :=
  (∀ L : Nat, IsLeast {k : Nat | (L + 1 + k + 8) % 64 = 0} (padZeros L)) ∧
  (∀ M : List Byte, 64 ∣ (padMessage M).length) ∧
  ∀ (a : Arch) (M : List Byte), M.length < 2 ^ 61 →
    digestBytes (finish (absorbAll M (hInit a))).h = sha256 M ∧
    (finish (absorbAll M (hInit a))).buf = zeroBlock ∧ (finish (absorbAll M (hInit a))).len = 0 ∧
    (finish (absorbAll M (hInit a))).k0 = a.k0 ∧ (finish (absorbAll M (hInit a))).phase = a.phase ∧
    (finish (absorbAll M (hInit a))).errcode = a.errcode

/-- R108 (a count the spec derives from R104 and R105): hashing a stream of L bytes performs floor(L/64) compressions
during the Absorb calls, and during Finish one when L mod 64 <= 55, two when L mod 64 >= 56; in total
floor((L + 8)/64) + 1, which is the number of blocks of the padded message (R107). The counting procedures leave the
state that the procedures leave. -/
def Obligations.CompressionCount : Prop :=
  ∀ (a : Arch) (M : List Byte), M.length < 2 ^ 61 →
    (countedStream M a).arch = absorbAll M (hInit a) ∧
    (countedFinish (countedStream M a)).arch = finish (absorbAll M (hInit a)) ∧
    (countedStream M a).count = M.length / 64 ∧
    (M.length % 64 ≤ 55 → (countedFinish (countedStream M a)).count = M.length / 64 + 1) ∧
    (56 ≤ M.length % 64 → (countedFinish (countedStream M a)).count = M.length / 64 + 2) ∧
    (countedFinish (countedStream M a)).count = (M.length + 8) / 64 + 1 ∧
    (blocksOf (padMessage M)).length = (M.length + 8) / 64 + 1

/-- R129 (a count the spec derives): an accepted PUSH compresses once when its byte completes a block of its stream,
else not; KEND once, with a key over 64 bytes once or twice more; FINAL once or twice in HASH and three or four times
in MSG. -/
def Obligations.CompressionsPerCommand : Prop :=
  ∀ s : State,
    (∀ b : Byte, s.arch.phase = .hash ∨ s.arch.phase = .key ∨ s.arch.phase = .msg →
      s.arch.len ≠ 0x1FFFFFFFFFFFFFFF →
      exec (.push b) s = .next { s with arch := (countedPush b s.arch).arch, outbox := s.outbox ++ [0] } ∧
      (countedPush b s.arch).count = if 64 ∣ s.arch.len.toNat + 1 then 1 else 0) ∧
    (s.arch.phase = .key →
      exec .kend s = .next { s with arch := (countedEndKey s.arch).arch, outbox := s.outbox ++ [0] } ∧
      (countedEndKey s.arch).count =
        if s.arch.len.toNat ≤ 64 then 1 else if 56 ≤ s.arch.len.toNat % 64 then 3 else 2) ∧
    (s.arch.phase = .hash ∨ s.arch.phase = .msg →
      exec .final s = .next { s with arch := (countedEndMessage s.arch).arch, outbox := s.outbox ++ [0] } ∧
      (countedEndMessage s.arch).count =
        (if 56 ≤ s.arch.len.toNat % 64 then 2 else 1) + if s.arch.phase = .msg then 2 else 0)

/-! ### Whole operations -/

/-- R122, R23: after KSTART and the pushes of a key, K0 holds the first 64 key bytes zero-extended, LEN counts all of
them, and the phase is KEY. -/
def Obligations.KeyCaptured : Prop :=
  ∀ (s : State) (K : List Byte), s.arch.phase = .idle ∨ s.arch.phase = .done → K.length ≤ 2 ^ 61 - 1 →
    ∃ t, runInbox (s.sending (commands (.kstart :: K.map .push))) = .next t ∧
      t.arch.phase = .key ∧ t.arch.errcode = s.arch.errcode ∧ t.arch.len.toNat = K.length ∧
      t.arch.k0 = blockOfBytes (K.take 64) ∧ t.outbox = s.outbox ++ List.replicate (K.length + 1) 0

/-- R123: trailing zero bytes of a short key do not change the key block, so neither the HMAC. -/
def Obligations.KeyTrailingZeros : Prop :=
  ∀ (K M : List Byte) (n : Nat), K.length + n ≤ 64 →
    keyBlock (K ++ List.replicate n 0) = keyBlock K ∧ hmac (K ++ List.replicate n 0) M = hmac K M

/-- R216, R107: from IDLE or DONE, HASH of any message up to 2^61 - 1 bytes completes without fault and leaves its
SHA-256 digest, whatever the state was before. -/
def Obligations.HashOperation : Prop :=
  ∀ (s : State) (M : List Byte), s.arch.phase = .idle ∨ s.arch.phase = .done → M.length ≤ 2 ^ 61 - 1 →
    ∃ t, runInbox (s.sending (commands (expandHash M))) = .next t ∧
      verdict t.arch = .produced ∧ digestBytes t.arch.h = sha256 M ∧
      t.arch.buf = zeroBlock ∧ t.arch.k0 = zeroBlock ∧ t.arch.len = 0 ∧ t.arch.errcode = s.arch.errcode ∧
      t.outbox = s.outbox ++ List.replicate (M.length + 2) 0

/-- R127: from IDLE or DONE, KSTART, the key, KEND, the message, FINAL completes without fault and leaves PHASE = DONE
and DG = HMAC(K, M), for every key up to 2^61 - 1 bytes and message up to 2^61 - 65 bytes, whatever the state was
before. -/
def Obligations.HmacOperation : Prop :=
  ∀ (s : State) (K M : List Byte), s.arch.phase = .idle ∨ s.arch.phase = .done →
    K.length ≤ 2 ^ 61 - 1 → M.length ≤ 2 ^ 61 - 65 →
    ∃ t, runInbox (s.sending (commands (expandHmac K M))) = .next t ∧
      t.arch.phase = .done ∧ digestBytes t.arch.h = hmac K M ∧
      t.arch.buf = zeroBlock ∧ t.arch.k0 = zeroBlock ∧ t.arch.len = 0 ∧ t.arch.errcode = s.arch.errcode ∧
      t.outbox = s.outbox ++ List.replicate (K.length + M.length + 3) 0

/-- R160, R161, R57: in phase DONE the 32 answers of RDDG are the digest bytes in order, the eight of RDDW the words of
H, and the architectural state is unchanged. -/
def Obligations.DigestReadOut : Prop :=
  ∀ s : State, s.arch.phase = .done →
    runInbox (s.sending (commands expandRddg)) = .next
      { arch := s.arch, inbox := [],
        outbox := s.outbox ++ (digestBytes s.arch.h).toList.map (fun b => b.setWidth 32) } ∧
    runInbox (s.sending (commands expandRddw)) = .next
      { arch := s.arch, inbox := [], outbox := s.outbox ++ s.arch.h.toList }

end
end

