-- ==== Sys2Proof/Laws/Assembler.lean ====
section
/-! SUPPORT. How the assembler reads a quoted string (R9, R78). -/

namespace Sys2Proof.Machine

theorem hexDigit_ne_quote (n : BitVec 4) : hexDigit n ≠ '"' := by revert n; decide

theorem hexValue_hexDigit (n : BitVec 4) : hexValue (hexDigit n) = some n.toNat := by revert n; decide

/-- Reading back the two digits of each byte gives the bytes (R9). -/
theorem parseHexBytes_hexBytes (bs : List Byte) : parseHexBytes (hexBytes bs) = some bs := by
  induction bs with
  | nil => rfl
  | cons b bs ih =>
    have join : BitVec.ofNat 8 (16 * (b.extractLsb' 4 4).toNat + (b.extractLsb' 0 4).toNat) = b := by
      apply BitVec.eq_of_toNat_eq
      have lt := b.isLt
      simp [Nat.shiftRight_eq_div_pow]
      omega
    simp only [hexBytes, hexByte, List.cons_append, List.nil_append, parseHexBytes, hexValue_hexDigit, ih,
      Option.bind_eq_bind, Option.bind_some, join]
    rfl

theorem hexBytes_no_quote (bs : List Byte) : '"' ∉ hexBytes bs := by
  induction bs with
  | nil => simp [hexBytes]
  | cons b bs ih =>
    simp [hexBytes, hexByte, ih, (hexDigit_ne_quote _).symm]

/-- A string in double quotes becomes one token. -/
theorem lex_hexString (cs rest acc : List Char) (plain : '"' ∉ cs) :
    lex (.inHex acc) (cs ++ '"' :: rest) = (lex .gap rest).map ([.hexString (acc.reverse ++ cs)] ++ ·) := by
  induction cs generalizing acc with
  | nil => simp [lex, LexMode.flush]
  | cons c cs ih =>
    have other : c ≠ '"' := fun same => plain (by simp [same])
    rw [List.cons_append, lex, if_neg other, ih _ (fun mem => plain (List.mem_cons_of_mem _ mem))]
    simp

/-- A text in single quotes becomes one token. -/
theorem lex_text (cs rest acc : List Char) (plain : '\'' ∉ cs) :
    lex (.inText acc) (cs ++ '\'' :: rest) = (lex .gap rest).map ([.text (acc.reverse ++ cs)] ++ ·) := by
  induction cs generalizing acc with
  | nil => simp [lex, LexMode.flush]
  | cons c cs ih =>
    have other : c ≠ '\'' := fun same => plain (by simp [same])
    rw [List.cons_append, lex, if_neg other, ih _ (fun mem => plain (List.mem_cons_of_mem _ mem))]
    simp

end Sys2Proof.Machine
end

