-- ==== Sys2Proof/Laws/State.lean ====
section
/-! SUPPORT. One lemma per field for each named update of State and Arch. -/

namespace Sys2Proof.Machine

variable (s : State) (es : List HostEvent) (c : Cause) (a : Arch)

@[simp] theorem zeroBlock_getElem (j : Nat) (lt : j < 64) : zeroBlock[j] = 0 := by simp [zeroBlock]
@[simp] theorem zeroChain_getElem (j : Nat) (lt : j < 8) : zeroChain[j] = 0 := by simp [zeroChain]

@[simp] theorem sending_arch : (s.sending es).arch = s.arch := rfl
@[simp] theorem sending_inbox : (s.sending es).inbox = es := rfl
@[simp] theorem sending_outbox : (s.sending es).outbox = s.outbox := rfl
@[simp] theorem sending_sending (fs : List HostEvent) : (s.sending es).sending fs = s.sending fs := rfl

@[simp] theorem takeReset_arch : (takeReset s).arch = Arch.reset := rfl
@[simp] theorem takeReset_inbox : (takeReset s).inbox = s.inbox := rfl
@[simp] theorem takeReset_outbox : (takeReset s).outbox = s.outbox := rfl

@[simp] theorem faultEntry_h : (faultEntry c).h = zeroChain := rfl
@[simp] theorem faultEntry_buf : (faultEntry c).buf = zeroBlock := rfl
@[simp] theorem faultEntry_k0 : (faultEntry c).k0 = zeroBlock := rfl
@[simp] theorem faultEntry_len : (faultEntry c).len = 0 := rfl
@[simp] theorem faultEntry_phase : (faultEntry c).phase = .fault := rfl
@[simp] theorem faultEntry_errcode : (faultEntry c).errcode = .of c := rfl

/-- CLR and reset agree in all six elements (R164, R33). -/
theorem clearedArch_eq_reset : clearedArch = Arch.reset := rfl

@[simp] theorem reset_phase : Arch.reset.phase = .idle := rfl
@[simp] theorem reset_errcode : Arch.reset.errcode = .none := rfl
@[simp] theorem reset_h : Arch.reset.h = zeroChain := rfl
@[simp] theorem reset_buf : Arch.reset.buf = zeroBlock := rfl
@[simp] theorem reset_k0 : Arch.reset.k0 = zeroBlock := rfl
@[simp] theorem reset_len : Arch.reset.len = 0 := rfl

@[simp] theorem compressBuf_h : (compressBuf a).h = compress a.h a.buf := rfl
@[simp] theorem compressBuf_buf : (compressBuf a).buf = zeroBlock := rfl
@[simp] theorem compressBuf_k0 : (compressBuf a).k0 = a.k0 := rfl
@[simp] theorem compressBuf_len : (compressBuf a).len = a.len := rfl
@[simp] theorem compressBuf_phase : (compressBuf a).phase = a.phase := rfl
@[simp] theorem compressBuf_errcode : (compressBuf a).errcode = a.errcode := rfl

@[simp] theorem hInit_h : (hInit a).h = initialHash := rfl
@[simp] theorem hInit_buf : (hInit a).buf = zeroBlock := rfl
@[simp] theorem hInit_k0 : (hInit a).k0 = a.k0 := rfl
@[simp] theorem hInit_len : (hInit a).len = 0 := rfl
@[simp] theorem hInit_phase : (hInit a).phase = a.phase := rfl
@[simp] theorem hInit_errcode : (hInit a).errcode = a.errcode := rfl

variable (b : Byte)

@[simp] theorem appendByte_h : (appendByte b a).h = a.h := rfl
@[simp] theorem appendByte_buf : (appendByte b a).buf = memWrite1 a.buf (fill a.len) b := rfl
@[simp] theorem appendByte_k0 : (appendByte b a).k0 = a.k0 := rfl
@[simp] theorem appendByte_len : (appendByte b a).len = a.len + 1 := rfl
@[simp] theorem appendByte_phase : (appendByte b a).phase = a.phase := rfl
@[simp] theorem appendByte_errcode : (appendByte b a).errcode = a.errcode := rfl

@[simp] theorem absorb_k0 : (absorb b a).k0 = a.k0 := by unfold absorb; split <;> rfl
@[simp] theorem absorb_len : (absorb b a).len = a.len + 1 := by unfold absorb; split <;> rfl
@[simp] theorem absorb_phase : (absorb b a).phase = a.phase := by unfold absorb; split <;> rfl
@[simp] theorem absorb_errcode : (absorb b a).errcode = a.errcode := by unfold absorb; split <;> rfl

variable (bs : List Byte)

@[simp] theorem absorbAll_nil : absorbAll [] a = a := rfl
@[simp] theorem absorbAll_cons : absorbAll (b :: bs) a = absorbAll bs (absorb b a) := rfl
theorem absorbAll_append (cs : List Byte) : absorbAll (bs ++ cs) a = absorbAll cs (absorbAll bs a) := by
  simp [absorbAll]
@[simp] theorem absorbAll_k0 : (absorbAll bs a).k0 = a.k0 := by
  induction bs generalizing a with
  | nil => rfl
  | cons b bs ih => simp [ih]
@[simp] theorem absorbAll_len : (absorbAll bs a).len = a.len + BitVec.ofNat 64 bs.length := by
  induction bs generalizing a with
  | nil => simp
  | cons b bs ih =>
    rw [absorbAll_cons, ih, absorb_len, List.length_cons, Nat.add_comm bs.length 1, BitVec.ofNat_add,
      ← BitVec.add_assoc]
    rfl
@[simp] theorem absorbAll_phase : (absorbAll bs a).phase = a.phase := by
  induction bs generalizing a with
  | nil => rfl
  | cons b bs ih => simp [ih]
@[simp] theorem absorbAll_errcode : (absorbAll bs a).errcode = a.errcode := by
  induction bs generalizing a with
  | nil => rfl
  | cons b bs ih => simp [ih]

@[simp] theorem finishMark_k0 : (finishMark a).k0 = a.k0 := by unfold finishMark; dsimp only; split <;> rfl
@[simp] theorem finishMark_phase : (finishMark a).phase = a.phase := by
  unfold finishMark; dsimp only; split <;> rfl
@[simp] theorem finishMark_errcode : (finishMark a).errcode = a.errcode := by
  unfold finishMark; dsimp only; split <;> rfl

@[simp] theorem finish_buf : (finish a).buf = zeroBlock := rfl
@[simp] theorem finish_len : (finish a).len = 0 := rfl
@[simp] theorem finish_k0 : (finish a).k0 = a.k0 := by simp [finish]
@[simp] theorem finish_phase : (finish a).phase = a.phase := by simp [finish]
@[simp] theorem finish_errcode : (finish a).errcode = a.errcode := by simp [finish]

@[simp] theorem keyCapture_h : (keyCapture b a).h = a.h := by unfold keyCapture; split <;> rfl
@[simp] theorem keyCapture_buf : (keyCapture b a).buf = a.buf := by unfold keyCapture; split <;> rfl
@[simp] theorem keyCapture_len : (keyCapture b a).len = a.len := by unfold keyCapture; split <;> rfl
@[simp] theorem keyCapture_phase : (keyCapture b a).phase = a.phase := by unfold keyCapture; split <;> rfl
@[simp] theorem keyCapture_errcode : (keyCapture b a).errcode = a.errcode := by unfold keyCapture; split <;> rfl

@[simp] theorem deriveKeyBlock_phase : (deriveKeyBlock a).phase = a.phase := by
  unfold deriveKeyBlock; dsimp only; split <;> simp
@[simp] theorem deriveKeyBlock_errcode : (deriveKeyBlock a).errcode = a.errcode := by
  unfold deriveKeyBlock; dsimp only; split <;> simp

@[simp] theorem innerStart_k0 : (innerStart a).k0 = a.k0 := by simp [innerStart]
@[simp] theorem innerStart_phase : (innerStart a).phase = a.phase := by simp [innerStart]
@[simp] theorem innerStart_errcode : (innerStart a).errcode = a.errcode := by simp [innerStart]

@[simp] theorem outerHash_buf : (outerHash a).buf = zeroBlock := rfl
@[simp] theorem outerHash_len : (outerHash a).len = 0 := rfl
@[simp] theorem outerHash_k0 : (outerHash a).k0 = a.k0 := by simp [outerHash]
@[simp] theorem outerHash_phase : (outerHash a).phase = a.phase := by simp [outerHash]
@[simp] theorem outerHash_errcode : (outerHash a).errcode = a.errcode := by simp [outerHash]

@[simp] theorem pushByte_len : (pushByte b a).len = a.len + 1 := by unfold pushByte; split <;> simp
@[simp] theorem pushByte_phase : (pushByte b a).phase = a.phase := by unfold pushByte; split <;> simp
@[simp] theorem pushByte_errcode : (pushByte b a).errcode = a.errcode := by unfold pushByte; split <;> simp

@[simp] theorem startOperation_phase (p : Phase) : (startOperation p a).phase = p := rfl
@[simp] theorem startOperation_h (p : Phase) : (startOperation p a).h = initialHash := rfl
@[simp] theorem startOperation_buf (p : Phase) : (startOperation p a).buf = zeroBlock := rfl
@[simp] theorem startOperation_k0 (p : Phase) : (startOperation p a).k0 = zeroBlock := rfl
@[simp] theorem startOperation_len (p : Phase) : (startOperation p a).len = 0 := rfl
@[simp] theorem startOperation_errcode (p : Phase) : (startOperation p a).errcode = a.errcode := rfl

@[simp] theorem endKey_phase : (endKey a).phase = .msg := rfl
@[simp] theorem endKey_k0 : (endKey a).k0 = (deriveKeyBlock a).k0 := by simp [endKey]
@[simp] theorem endKey_errcode : (endKey a).errcode = a.errcode := by simp [endKey]

@[simp] theorem endMessage_phase : (endMessage a).phase = .done := rfl
@[simp] theorem endMessage_k0 : (endMessage a).k0 = zeroBlock := rfl
@[simp] theorem endMessage_buf : (endMessage a).buf = zeroBlock := by
  simp only [endMessage]; split <;> simp
@[simp] theorem endMessage_len : (endMessage a).len = 0 := by
  simp only [endMessage]; split <;> simp
@[simp] theorem endMessage_errcode : (endMessage a).errcode = a.errcode := by
  simp only [endMessage]; split <;> simp

end Sys2Proof.Machine
end

