-- ==== Sys2Proof/Laws/Compressions.lean ====
section
/-! SUPPORT. The counting procedures compute what the procedures compute, and how many compressions each performs. -/

namespace Sys2Proof.Machine

/-- LEN mod 64 counts on, at the top of LEN too. -/
theorem len_succ_mod (len : BitVec 64) : (len + 1).toNat % 64 = (len.toNat % 64 + 1) % 64 := by
  simp

variable (b : Byte) (bs : List Byte) (c : Counted)

@[simp] theorem countedAbsorb_arch : (countedAbsorb b c).arch = absorb b c.arch := by
  unfold countedAbsorb absorb
  dsimp only
  split <;> rfl

@[simp] theorem countedAbsorb_count :
    (countedAbsorb b c).count = c.count + (c.arch.len.toNat % 64 + 1) / 64 := by
  have fill_eq : (fill (c.arch.len + 1)).val = (c.arch.len.toNat % 64 + 1) % 64 := len_succ_mod _
  unfold countedAbsorb
  dsimp only
  split
  · rename_i full
    have zero : (fill (c.arch.len + 1)).val = 0 := congrArg Fin.val full
    have one : (c.arch.len.toNat % 64 + 1) / 64 = 1 := by omega
    rw [one]; rfl
  · rename_i room
    have nonzero : (fill (c.arch.len + 1)).val ≠ 0 := fun zero => room (Fin.ext zero)
    have none_full : (c.arch.len.toNat % 64 + 1) / 64 = 0 := by omega
    rw [none_full]; rfl

@[simp] theorem countedAbsorbAll_arch : (countedAbsorbAll bs c).arch = absorbAll bs c.arch := by
  induction bs generalizing c with
  | nil => rfl
  | cons b bs ih => exact (ih _).trans (congrArg _ (countedAbsorb_arch b c))

/-- The Absorb calls compress once for each block they complete (R108). -/
@[simp] theorem countedAbsorbAll_count :
    (countedAbsorbAll bs c).count = c.count + (c.arch.len.toNat % 64 + bs.length) / 64 := by
  induction bs generalizing c with
  | nil =>
    have none_full : c.arch.len.toNat % 64 / 64 = 0 := by omega
    simp [countedAbsorbAll, none_full]
  | cons b bs ih =>
    have tail := ih (countedAbsorb b c)
    rw [countedAbsorb_arch, absorb_len, countedAbsorb_count, len_succ_mod] at tail
    rw [List.length_cons]
    refine tail.trans ?_
    omega

@[simp] theorem countedFinish_arch : (countedFinish c).arch = finish c.arch := by
  unfold countedFinish finish finishMark
  dsimp only
  split <;> rfl

/-- Finish compresses once when the length has room beside the fill, else twice (R105, R108). -/
@[simp] theorem countedFinish_count :
    (countedFinish c).count = c.count + if 56 ≤ c.arch.len.toNat % 64 then 2 else 1 := by
  have fill_eq : (fill c.arch.len).val = c.arch.len.toNat % 64 := rfl
  unfold countedFinish
  dsimp only
  rw [fill_eq]
  split <;> rfl

@[simp] theorem countedPush_arch (a : Arch) : (countedPush b a).arch = pushByte b a :=
  countedAbsorb_arch b _

@[simp] theorem countedDeriveKeyBlock_arch (a : Arch) : (countedDeriveKeyBlock a).arch = deriveKeyBlock a := by
  unfold countedDeriveKeyBlock deriveKeyBlock
  split <;> simp

@[simp] theorem countedEndKey_arch (a : Arch) : (countedEndKey a).arch = endKey a := by
  simp [countedEndKey, endKey, innerStart]

@[simp] theorem countedOuterHash_arch : (countedOuterHash c).arch = outerHash c.arch := by
  simp [countedOuterHash, outerHash]

@[simp] theorem countedEndMessage_arch (a : Arch) : (countedEndMessage a).arch = endMessage a := by
  unfold countedEndMessage endMessage
  dsimp only
  split <;> simp

end Sys2Proof.Machine
end

