-- ==== Sys2Proof/Laws/Decode.lean ====
section
/-! SUPPORT. A command word is its fields put together; what a decoded word looks like. -/

namespace Sys2Proof

/-- Format Z: a word is its opcode and its low 24 bits (R71). -/
theorem word_fields_Z (x : Word) : x.extractLsb' 24 8 ++ x.extractLsb' 0 24 = x := by
  apply BitVec.eq_of_getLsbD_eq
  intro i lt
  simp only [BitVec.getLsbD_append, BitVec.getLsbD_extractLsb']
  split
  · simp; omega
  · rw [show 24 + (i - 24) = i by omega]; simp; omega

/-- Format B: opcode, must-be-zero field, imm8 (R71). -/
theorem word_fields_B (x : Word) : x.extractLsb' 24 8 ++ x.extractLsb' 8 16 ++ x.extractLsb' 0 8 = x := by
  apply BitVec.eq_of_getLsbD_eq
  intro i lt
  simp only [BitVec.getLsbD_append, BitVec.getLsbD_extractLsb']
  split_ifs
  · simp; omega
  · rw [show 8 + (i - 8) = i by omega]; simp; omega
  · rw [show 24 + (i - 8 - 16) = i by omega]; simp; omega

/-- Format XW: opcode, must-be-zero field, idx3 (R71). -/
theorem word_fields_XW (x : Word) : x.extractLsb' 24 8 ++ x.extractLsb' 3 21 ++ x.extractLsb' 0 3 = x := by
  apply BitVec.eq_of_getLsbD_eq
  intro i lt
  simp only [BitVec.getLsbD_append, BitVec.getLsbD_extractLsb']
  split_ifs
  · simp; omega
  · rw [show 3 + (i - 3) = i by omega]; simp; omega
  · rw [show 24 + (i - 3 - 21) = i by omega]; simp; omega

/-- Format XB: opcode, must-be-zero field, idx5 (R71). -/
theorem word_fields_XB (x : Word) : x.extractLsb' 24 8 ++ x.extractLsb' 5 19 ++ x.extractLsb' 0 5 = x := by
  apply BitVec.eq_of_getLsbD_eq
  intro i lt
  simp only [BitVec.getLsbD_append, BitVec.getLsbD_extractLsb']
  split_ifs
  · simp; omega
  · rw [show 5 + (i - 5) = i by omega]; simp; omega
  · rw [show 24 + (i - 5 - 19) = i by omega]; simp; omega

/-- Inversion of a format: the must-be-zero bits are zero and the command is the one named (R71). -/
theorem decodeZ_eq_some {cw : Word} {i j : Instr} (read : decodeZ cw i = some j) :
    cw.extractLsb' 0 24 = 0 ∧ j = i := by
  unfold decodeZ at read
  split at read
  · rename_i zero
    injection read with same
    exact ⟨zero, same.symm⟩
  · cases read

theorem decodeB_eq_some {cw : Word} {mk : Byte → Instr} {j : Instr} (read : decodeB cw mk = some j) :
    cw.extractLsb' 8 16 = 0 ∧ j = mk (cw.extractLsb' 0 8) := by
  unfold decodeB at read
  split at read
  · rename_i zero
    injection read with same
    exact ⟨zero, same.symm⟩
  · cases read

theorem decodeXW_eq_some {cw : Word} {mk : BitVec 3 → Instr} {j : Instr} (read : decodeXW cw mk = some j) :
    cw.extractLsb' 3 21 = 0 ∧ j = mk (cw.extractLsb' 0 3) := by
  unfold decodeXW at read
  split at read
  · rename_i zero
    injection read with same
    exact ⟨zero, same.symm⟩
  · cases read

theorem decodeXB_eq_some {cw : Word} {mk : BitVec 5 → Instr} {j : Instr} (read : decodeXB cw mk = some j) :
    cw.extractLsb' 5 19 = 0 ∧ j = mk (cw.extractLsb' 0 5) := by
  unfold decodeXB at read
  split at read
  · rename_i zero
    injection read with same
    exact ⟨zero, same.symm⟩
  · cases read

/-- A word whose opcode field and low bits are those of format Z is the word of that format. -/
theorem eq_encodeZ {cw : Word} {op : BitVec 8} (opcode : opField cw = op) (zero : cw.extractLsb' 0 24 = 0) :
    encodeZ op = cw := by
  have whole := word_fields_Z cw
  rwa [zero, show cw.extractLsb' 24 8 = op from opcode] at whole

/-- Inversion of the decoder: which opcode was read, and by which format (R73, R74). -/
theorem decode_inversion {cw : Word} {i : Instr} (read : decode cw = some i) :
    (opField cw = 0x00 ∧ decodeZ cw .nop = some i) ∨ (opField cw = 0x01 ∧ decodeZ cw .clr = some i) ∨
    (opField cw = 0x02 ∧ decodeZ cw .rdst = some i) ∨ (opField cw = 0x10 ∧ decodeZ cw .hstart = some i) ∨
    (opField cw = 0x11 ∧ decodeZ cw .kstart = some i) ∨ (opField cw = 0x12 ∧ decodeZ cw .kend = some i) ∨
    (opField cw = 0x13 ∧ decodeZ cw .final = some i) ∨ (opField cw = 0x20 ∧ decodeB cw .push = some i) ∨
    (opField cw = 0x30 ∧ decodeXW cw .rdw = some i) ∨ (opField cw = 0x31 ∧ decodeXB cw .rdb = some i) := by
  unfold decode at read
  split_ifs at read <;> simp_all only [true_and, true_or, or_true]

end Sys2Proof
end

