-- ==== Sys2Proof/Laws/Ops.lean ====
section
/-! SUPPORT. What each shared operation and each meaning can do, said once. -/

namespace Sys2Proof.Machine

variable (s : State)

/-- The three outcomes of a command that is legal only in some phases (R187). -/
theorem inSequence_cases (legal : List Phase) (act : State → Result) :
    (s.arch.phase = .fault ∧ inSequence legal act s = ignoreWord s) ∨
    (s.arch.phase ≠ .fault ∧ s.arch.phase ∈ legal ∧ inSequence legal act s = act s) ∨
    (s.arch.phase ≠ .fault ∧ s.arch.phase ∉ legal ∧ inSequence legal act s = raiseFault .seq s) := by
  unfold inSequence
  split_ifs <;> simp_all

/-- The two outcomes of an illegal word (R181, R188). -/
theorem illegalWord_cases :
    (s.arch.phase = .fault ∧ illegalWord s = ignoreWord s) ∨
    (s.arch.phase ≠ .fault ∧ illegalWord s = raiseFault .illcmd s) := by
  unfold illegalWord
  split_ifs <;> simp_all

/-- The architectural state after a decoded command and its response word (R6): the meanings of the ten commands as
one function, with the boundary left out. -/
def effect (i : Instr) (a : Arch) : Arch × Word :=
  match i with
  | .nop => (a, 0)
  | .clr => (Arch.reset, 0)
  | .rdst => (a, status a)
  | .hstart => guarded [.idle, .done] a (startOperation .hash a, 0)
  | .kstart => guarded [.idle, .done] a (startOperation .key a, 0)
  | .push b => guarded [.hash, .key, .msg] a
      (if a.len = Config.lenMax then (faultEntry .lenovf, 0) else (pushByte b a, 0))
  | .kend => guarded [.key] a (endKey a, 0)
  | .final => guarded [.hash, .msg] a (endMessage a, 0)
  | .rdw i => guarded [.done] a (a, memRead4 a.h i)
  | .rdb i => guarded [.done] a (a, (memRead1 a.h i.toFin).setWidth 32)
where
  /-- The order of the checks (R187). -/
  guarded (legal : List Phase) (a : Arch) (out : Arch × Word) : Arch × Word :=
    if a.phase = .fault then (a, 0) else if a.phase ∈ legal then out else (faultEntry .seq, 0)

/-- Every command completes, and what it does is `effect` on the architectural state and one response. -/
theorem exec_eq_effect (i : Instr) :
    exec i s = .next { s with arch := (effect i s.arch).1, outbox := s.outbox ++ [(effect i s.arch).2] } := by
  cases i <;>
    simp only [exec, execNop, execClr, execRdst, execHstart, execKstart, execPush, execKend, execFinal, execRdw,
      execRdb, effect, effect.guarded, inSequence, complete, ignoreWord, raiseFault, clearedArch_eq_reset] <;>
    split_ifs <;> rfl

/-- The architectural state and the response of any command word (R6, R74). -/
def wordEffect (cw : Word) (a : Arch) : Arch × Word :=
  match decode cw with
  | some i => effect i a
  | none => if a.phase = .fault then (a, 0) else (faultEntry .illcmd, 0)

/-- Every word completes (R6, R195). -/
theorem runWord_eq_wordEffect (cw : Word) :
    runWord cw s =
      .next { s with arch := (wordEffect cw s.arch).1, outbox := s.outbox ++ [(wordEffect cw s.arch).2] } := by
  unfold runWord wordEffect
  cases decode cw with
  | some i => exact exec_eq_effect s i
  | none =>
    simp only [illegalWord, ignoreWord, raiseFault, complete]
    split_ifs <;> rfl

end Sys2Proof.Machine
end

