-- ==== Sys2Proof/Laws/PerInstr.lean ====
section
/-! SUPPORT. One law for each command: its word matches its own row of the opcode map and no other (R71 to R73). -/

namespace Sys2Proof.Laws.EncodesOwnRow

/-- The encoded command is accepted by exactly the row that carries its mnemonic. -/
def Statement (i : Instr) : Prop :=
  ∀ r ∈ opcodeTable, r.accepts (encode i) = decide (r.mnemonic = i.mnemonic)

theorem nop : Statement .nop := by unfold Statement; decide
theorem clr : Statement .clr := by unfold Statement; decide
theorem rdst : Statement .rdst := by unfold Statement; decide
theorem hstart : Statement .hstart := by unfold Statement; decide
theorem kstart : Statement .kstart := by unfold Statement; decide
theorem kend : Statement .kend := by unfold Statement; decide
theorem final : Statement .final := by unfold Statement; decide
theorem push (imm8 : Byte) : Statement (.push imm8) := by
  unfold Statement; revert imm8; decide +kernel
theorem rdw (idx3 : BitVec 3) : Statement (.rdw idx3) := by
  unfold Statement; revert idx3; decide +kernel
theorem rdb (idx5 : BitVec 5) : Statement (.rdb idx5) := by
  unfold Statement; revert idx5; decide +kernel

end Sys2Proof.Laws.EncodesOwnRow
end

