-- ==== Sys2Proof/Laws/Step.lean ====
section
/-! SUPPORT. What a step and a run can do, said once. -/

namespace Sys2Proof.Machine

/-- The state after one event taken from the inbox. -/
def afterEvent (e : HostEvent) (s : State) : State :=
  match e with
  | .reset => { s with arch := Arch.reset }
  | .command cw => { s with arch := (wordEffect cw s.arch).1, outbox := s.outbox ++ [(wordEffect cw s.arch).2] }

@[simp] theorem afterEvent_inbox (e : HostEvent) (s : State) : (afterEvent e s).inbox = s.inbox := by
  cases e <;> rfl

/-- An event does not depend on the events that wait behind it (R59). -/
theorem afterEvent_sending (e : HostEvent) (s : State) (es : List HostEvent) :
    afterEvent e (s.sending es) = (afterEvent e s).sending es := by
  cases e <;> rfl

theorem step_nil (s : State) (empty : s.inbox = []) : step s = .next s := by
  simp [step, serveHost, empty]

theorem step_cons (s : State) (e : HostEvent) (rest : List HostEvent) (waits : s.inbox = e :: rest) :
    step s = .next (afterEvent e { s with inbox := rest }) := by
  simp only [step, serveHost, waits]
  cases e with
  | reset => rfl
  | command cw => exact runWord_eq_wordEffect _ cw

/-- Inversion of a step: it holds the state, or it takes the oldest event. -/
theorem step_cases (s t : State) (ran : step s = .next t) :
    (s.inbox = [] ∧ t = s) ∨ ∃ e rest, s.inbox = e :: rest ∧ t = afterEvent e { s with inbox := rest } := by
  rcases waits : s.inbox with _ | ⟨e, rest⟩
  · rw [step_nil s waits] at ran
    exact .inl ⟨rfl, by injection ran with same; exact same.symm⟩
  · rw [step_cons s e rest waits] at ran
    exact .inr ⟨e, rest, rfl, by injection ran with same; exact same.symm⟩

theorem step_sending_cons (s : State) (e : HostEvent) (es : List HostEvent) :
    step (s.sending (e :: es)) = .next ((afterEvent e s).sending es) := by
  rw [step_cons _ e es rfl]
  exact congrArg _ (afterEvent_sending e s es)

/-- The state after a list of events, each taken in order (R59). -/
def afterEvents (es : List HostEvent) (s : State) : State := es.foldl (fun s e => afterEvent e s) s

@[simp] theorem afterEvents_nil (s : State) : afterEvents [] s = s := rfl
@[simp] theorem afterEvents_cons (e : HostEvent) (es : List HostEvent) (s : State) :
    afterEvents (e :: es) s = afterEvents es (afterEvent e s) := rfl
theorem afterEvents_append (es fs : List HostEvent) (s : State) :
    afterEvents (es ++ fs) s = afterEvents fs (afterEvents es s) := by
  simp [afterEvents]
@[simp] theorem afterEvents_inbox (es : List HostEvent) (s : State) : (afterEvents es s).inbox = s.inbox := by
  induction es generalizing s with
  | nil => rfl
  | cons e es ih => simp [ih]

/-- A run goes on from the state its first step answers, said of any machine. -/
theorem machineRun_next (M : Host.Core) (k : Nat) (s t : M.State) (ran : M.step s = .next t) :
    M.run (k + 1) s = M.run k t := by
  rw [Host.Core.run, ran]

/-- A run goes on from the state its first step answers. -/
theorem run_next (k : Nat) (s t : State) (ran : step s = .next t) :
    Host.Core.run core (k + 1) s = Host.Core.run core k t :=
  machineRun_next core k s t ran

/-- A run over `es` is `es` taken in order, whatever waits behind. -/
theorem run_sending_append (es later : List HostEvent) (s : State) :
    Host.Core.run core es.length (s.sending (es ++ later)) = .next ((afterEvents es s).sending later) := by
  induction es generalizing s with
  | nil => rfl
  | cons e es ih =>
    exact (run_next es.length _ _ (step_sending_cons s e (es ++ later))).trans (ih _)

theorem runInbox_sending (es : List HostEvent) (s : State) :
    runInbox (s.sending es) = .next ((afterEvents es s).sending []) := by
  have all := run_sending_append es [] s
  rwa [List.append_nil] at all

end Sys2Proof.Machine
end

