-- ==== Sys2Proof/Laws/Stream.lean ====
section
/-! SUPPORT. The procedures against byte sequences: what BUF, H and LEN hold after a stream, what padding writes. -/

namespace Sys2Proof.Machine

/-! ### Blocks as byte sequences -/

@[simp] theorem blockOfBytes_getElem (bs : List Byte) (j : Nat) (lt : j < 64) :
    (blockOfBytes bs)[j] = bs.getD j 0 := by
  simp [blockOfBytes]

theorem blockOfBytes_nil : blockOfBytes [] = zeroBlock := by
  apply Vector.ext; intro j lt; simp

theorem blockOfBytes_congr {bs cs : List Byte} (same : ∀ j, j < 64 → bs.getD j 0 = cs.getD j 0) :
    blockOfBytes bs = blockOfBytes cs := by
  apply Vector.ext; intro j lt; simp only [blockOfBytes_getElem, same j lt]

/-- Zero bytes after the end write nothing new. -/
theorem blockOfBytes_zeros (bs : List Byte) (n : Nat) :
    blockOfBytes (bs ++ List.replicate n 0) = blockOfBytes bs := by
  apply blockOfBytes_congr
  intro j _
  simp only [List.getD_eq_getElem?_getD]
  rcases Nat.lt_or_ge j bs.length with inside | past
  · rw [List.getElem?_append_left inside]
  · rw [List.getElem?_append_right past, List.getElem?_eq_none past, List.getElem?_replicate]
    split <;> rfl

/-- Only the first 64 bytes count. -/
theorem blockOfBytes_take (bs : List Byte) : blockOfBytes (bs.take 64) = blockOfBytes bs := by
  apply blockOfBytes_congr
  intro j lt
  simp [List.getD_eq_getElem?_getD, lt]

theorem blockOfBytes_toList (b : Block) : blockOfBytes b.toList = b := by
  apply Vector.ext; intro j lt
  simp [List.getD_eq_getElem?_getD, lt]

/-- Writing the byte after the end of a sequence appends it. -/
theorem blockOfBytes_set (bs : List Byte) (b : Byte) (room : bs.length < 64) :
    (blockOfBytes bs).set bs.length b = blockOfBytes (bs ++ [b]) := by
  apply Vector.ext; intro j lt
  rw [Vector.getElem_set]
  simp only [blockOfBytes_getElem, List.getD_eq_getElem?_getD]
  by_cases at_end : bs.length = j
  · simp [at_end]
  · rcases Nat.lt_or_ge j bs.length with inside | past
    · simp [at_end, List.getElem?_append_left inside]
    · rw [if_neg at_end, List.getElem?_eq_none past, List.getElem?_eq_none (by simp; omega)]

/-! ### Cutting into blocks -/

theorem cutBlocks_length (n : Nat) (bs : List Byte) : (cutBlocks n bs).length = n := by
  induction n generalizing bs with
  | zero => rfl
  | succ n ih => simp [cutBlocks, ih]

theorem cutBlocks_append (n m : Nat) (P Q : List Byte) (whole : P.length = 64 * n) :
    cutBlocks (n + m) (P ++ Q) = cutBlocks n P ++ cutBlocks m Q := by
  induction n generalizing P with
  | zero =>
    have empty : P = [] := List.eq_nil_of_length_eq_zero (by omega)
    simp [empty, cutBlocks]
  | succ n ih =>
    rw [Nat.succ_add, cutBlocks, cutBlocks, List.cons_append, List.drop_append_of_le_length (by omega),
      ih (P.drop 64) (by simp; omega), List.take_append_of_le_length (by omega)]

theorem blocksOf_append (P Q : List Byte) (whole : 64 ∣ P.length) :
    blocksOf (P ++ Q) = blocksOf P ++ blocksOf Q := by
  obtain ⟨n, len⟩ := whole
  have count : (P ++ Q).length / 64 = n + Q.length / 64 := by simp; omega
  have countP : P.length / 64 = n := by omega
  rw [blocksOf, blocksOf, blocksOf, count, countP, cutBlocks_append n _ P Q len]

theorem blocksOf_short (bs : List Byte) (short : bs.length < 64) : blocksOf bs = [] := by
  have none_whole : bs.length / 64 = 0 := by omega
  simp [blocksOf, none_whole, cutBlocks]

theorem blocksOf_one (bs : List Byte) (one : bs.length = 64) : blocksOf bs = [blockOfBytes bs] := by
  have count : bs.length / 64 = 1 := by omega
  rw [blocksOf, count, cutBlocks, cutBlocks, blockOfBytes_take]

/-- The whole blocks of a sequence, as bytes. -/
def wholePart (M : List Byte) : List Byte := M.take (64 * (M.length / 64))

/-- The bytes after the last whole block. -/
def tailPart (M : List Byte) : List Byte := M.drop (64 * (M.length / 64))

theorem wholePart_append_tailPart (M : List Byte) : wholePart M ++ tailPart M = M := List.take_append_drop _ _

@[simp] theorem tailPart_length (M : List Byte) : (tailPart M).length = M.length % 64 := by
  simp [tailPart]; omega

theorem wholePart_dvd (M : List Byte) : 64 ∣ (wholePart M).length :=
  ⟨M.length / 64, by simp [wholePart]; omega⟩

theorem wholePart_length (M : List Byte) : (wholePart M).length = 64 * (M.length / 64) := by
  simp [wholePart]; omega

/-- What follows a sequence only completes its tail. -/
theorem blocksOf_extend (M N : List Byte) :
    blocksOf (M ++ N) = blocksOf (wholePart M) ++ blocksOf (tailPart M ++ N) := by
  conv_lhs => rw [← wholePart_append_tailPart M, List.append_assoc]
  exact blocksOf_append _ _ (wholePart_dvd M)

theorem blocksOf_eq_wholePart (M : List Byte) : blocksOf M = blocksOf (wholePart M) := by
  have ext := blocksOf_extend M []
  rwa [List.append_nil, List.append_nil, blocksOf_short (tailPart M) (by simp; omega), List.append_nil] at ext

theorem hashBlocks_append (c : Chain) (bs cs : List Block) :
    hashBlocks c (bs ++ cs) = hashBlocks (hashBlocks c bs) cs := by
  simp [hashBlocks]

/-! ### Absorb -/

/-- `a` holds the hash in progress of the byte sequence `M` (R22, R24). -/
structure Absorbed (M : List Byte) (a : Arch) : Prop where
  chain : a.h = hashBlocks initialHash (blocksOf M)
  buffer : a.buf = blockOfBytes (tailPart M)
  count : a.len = BitVec.ofNat 64 M.length

theorem Absorbed.fill_val {M : List Byte} {a : Arch} (holds : Absorbed M a) :
    (fill a.len).val = M.length % 64 := by
  simp only [fill, holds.count, BitVec.toNat_ofNat]
  omega

theorem absorbed_hInit (a : Arch) : Absorbed [] (hInit a) where
  chain := by simp [blocksOf, cutBlocks, hashBlocks]
  buffer := by simp [tailPart, blockOfBytes_nil]
  count := rfl

theorem Absorbed.append {M : List Byte} {a : Arch} (holds : Absorbed M a) (b : Byte) :
    (appendByte b a).buf = blockOfBytes (tailPart M ++ [b]) ∧
    (appendByte b a).len = BitVec.ofNat 64 (M ++ [b]).length := by
  constructor
  · have room : (tailPart M).length < 64 := by simp; omega
    rw [appendByte_buf, memWrite1, holds.buffer, ← blockOfBytes_set _ _ room]
    congr 1
    rw [holds.fill_val, tailPart_length]
  · rw [appendByte_len, holds.count]
    apply BitVec.eq_of_toNat_eq
    simp

/-- Absorb appends one byte to the stream (R104). -/
theorem Absorbed.absorb {M : List Byte} {a : Arch} (holds : Absorbed M a) (b : Byte) :
    Absorbed (M ++ [b]) (absorb b a) := by
  obtain ⟨buf_eq, len_eq⟩ := holds.append b
  have fill_eq : (fill (appendByte b a).len).val = (M.length + 1) % 64 := by
    rw [len_eq]
    simp [fill]
  have whole : (M ++ [b]).length / 64 = (M.length + 1) / 64 := by simp
  unfold Machine.absorb
  split
  · rename_i full
    have full_val : (M.length + 1) % 64 = 0 := by rw [← fill_eq, full]; rfl
    have completes : (tailPart M ++ [b]).length = 64 := by simp; omega
    refine ⟨?_, ?_, ?_⟩
    · rw [compressBuf_h, appendByte_h, buf_eq, holds.chain, blocksOf_extend M [b], blocksOf_eq_wholePart M,
        blocksOf_one _ completes, hashBlocks_append]
      rfl
    · have empty : tailPart (M ++ [b]) = [] := List.eq_nil_of_length_eq_zero (by simp; omega)
      rw [compressBuf_buf, empty, blockOfBytes_nil]
    · rw [compressBuf_len, len_eq]
  · rename_i room
    have room_val : (M.length + 1) % 64 ≠ 0 := by
      intro zero
      exact room (Fin.ext (by rw [fill_eq, zero]; rfl))
    refine ⟨?_, ?_, len_eq⟩
    · rw [appendByte_h, holds.chain, blocksOf_extend M [b], blocksOf_eq_wholePart M,
        blocksOf_short (tailPart M ++ [b]) (by simp; omega), List.append_nil]
    · rw [buf_eq]
      have same : (M ++ [b]).length / 64 = M.length / 64 := by simp; omega
      rw [tailPart, tailPart, same, List.drop_append_of_le_length (by omega)]

theorem Absorbed.absorbAll {M : List Byte} {a : Arch} (holds : Absorbed M a) (bs : List Byte) :
    Absorbed (M ++ bs) (absorbAll bs a) := by
  induction bs generalizing M a with
  | nil => simpa using holds
  | cons b bs ih =>
    have next := ih (holds.absorb b)
    rwa [List.append_assoc, List.singleton_append] at next

/-! ### Finish -/

theorem be64_length (v : BitVec 64) : (be64 v).length = 8 := by simp [be64]

/-- The block with the 0x80 byte placed is the bytes before it, then 0x80, then zeros (R105). -/
theorem padMark_eq (buf : Block) (r : Fin 64) :
    padMark buf r = blockOfBytes (buf.toList.take r.val ++ [0x80]) := by
  have taken : (buf.toList.take r.val).length = r.val := by simp
  apply Vector.ext; intro j lt
  simp only [padMark, Vector.getElem_ofFn, blockOfBytes_getElem, List.getD_eq_getElem?_getD]
  rcases Nat.lt_trichotomy j r.val with below | at_r | above
  · rw [if_pos below, List.getElem?_append_left (by omega), List.getElem?_take, if_pos below]
    simp [lt]
  · rw [if_neg (by omega), if_pos (Fin.ext at_r), List.getElem?_append_right (by omega), taken, at_r]
    simp
  · have differs : ¬ ((⟨j, lt⟩ : Fin 64) = r) := fun same => by
      have := congrArg Fin.val same
      simp at this
      omega
    rw [if_neg (by omega), if_neg differs, List.getElem?_eq_none (by simp; omega)]
    rfl

/-- The block with the length placed, over at most 56 bytes (R52, R105). -/
theorem putLength_eq (bs : List Byte) (short : bs.length ≤ 56) (v : BitVec 64) :
    putLength (blockOfBytes bs) v = blockOfBytes (bs ++ List.replicate (56 - bs.length) 0 ++ be64 v) := by
  have front : (bs ++ List.replicate (56 - bs.length) (0 : Byte)).length = 56 := by simp; omega
  apply Vector.ext; intro j lt
  simp only [putLength, Vector.getElem_ofFn, blockOfBytes_getElem]
  by_cases inside : j < 56
  · rw [if_pos inside, List.getD_append _ _ _ _ (by omega)]
    have same := congrArg (fun b : Block => b[j]) (blockOfBytes_zeros bs (56 - bs.length))
    simpa only [blockOfBytes_getElem] using same.symm
  · rw [if_neg inside, List.getD_append_right _ _ _ _ (by omega), front]
    have small : j - 56 < 8 := by omega
    simp [be64, List.getD_eq_getElem?_getD, List.getElem?_range small]

/-- Finish with room for the length: one compression (R105). -/
theorem finish_one (a : Arch) (room : (fill a.len).val < 56) :
    finish a = { a with
      h := compress a.h (blockOfBytes (a.buf.toList.take (fill a.len).val ++ [0x80] ++
        List.replicate (55 - (fill a.len).val) 0 ++ be64 (8 * a.len))),
      buf := zeroBlock, len := 0 } := by
  have marked : (a.buf.toList.take (fill a.len).val ++ [(0x80 : Byte)]).length = (fill a.len).val + 1 := by
    simp
  simp only [finish, finishMark, if_neg (Nat.not_le.mpr room), compressBuf, padMark_eq]
  rw [putLength_eq _ (by omega), marked]
  have zeros : 56 - ((fill a.len).val + 1) = 55 - (fill a.len).val := by omega
  rw [zeros]

/-- Finish without room for the length: two compressions (R105). -/
theorem finish_two (a : Arch) (no_room : 56 ≤ (fill a.len).val) :
    finish a = { a with
      h := compress
        (compress a.h (blockOfBytes (a.buf.toList.take (fill a.len).val ++ [0x80] ++
          List.replicate (63 - (fill a.len).val) 0)))
        (blockOfBytes (List.replicate 56 0 ++ be64 (8 * a.len))),
      buf := zeroBlock, len := 0 } := by
  simp only [finish, finishMark, if_pos no_room, compressBuf, padMark_eq, blockOfBytes_zeros]
  rw [← blockOfBytes_nil, putLength_eq [] (by simp)]
  rfl

theorem tail_take (M : List Byte) :
    (blockOfBytes (tailPart M)).toList.take (M.length % 64) = tailPart M := by
  have short : (tailPart M).length < 64 := by simp; omega
  apply List.ext_getElem
  · simp; omega
  · intro j lt lt'
    have inside : j < 64 := by omega
    rw [List.getElem_take, Vector.getElem_toList, blockOfBytes_getElem _ _ inside, List.getD_eq_getElem _ _ lt']

/-- Finish completes the hash of the stream (R105, R107). -/
theorem Absorbed.finish {M : List Byte} {a : Arch} (holds : Absorbed M a) :
    (finish a).h = hashBlocks initialHash (blocksOf (padMessage M)) := by
  have fill_eq := holds.fill_val
  have taken : a.buf.toList.take (fill a.len).val = tailPart M := by
    rw [fill_eq, holds.buffer, tail_take]
  have bits : 8 * a.len = BitVec.ofNat 64 (8 * M.length) := by
    rw [holds.count]
    apply BitVec.eq_of_toNat_eq
    simp [BitVec.toNat_mul]
  have parts : blocksOf (padMessage M) = blocksOf M ++ blocksOf (tailPart M ++ ([0x80] ++
      List.replicate (padZeros M.length) 0 ++ be64 (BitVec.ofNat 64 (8 * M.length)))) := by
    rw [padMessage, List.append_assoc, List.append_assoc, blocksOf_extend, blocksOf_eq_wholePart M,
      ← List.append_assoc [0x80]]
  rw [parts, hashBlocks_append, ← holds.chain]
  rcases Nat.lt_or_ge (M.length % 64) 56 with room | no_room
  · have zeros : padZeros M.length = 55 - M.length % 64 := by unfold padZeros; omega
    rw [finish_one a (by omega), taken, bits, fill_eq, zeros]
    rw [blocksOf_one _ (by simp [be64_length]; omega)]
    simp [hashBlocks]
  · have zeros : padZeros M.length = (63 - M.length % 64) + 56 := by unfold padZeros; omega
    rw [finish_two a (by omega), taken, bits, fill_eq, zeros, ← List.replicate_append_replicate]
    have regroup : tailPart M ++ ([0x80] ++ (List.replicate (63 - M.length % 64) 0 ++ List.replicate 56 0) ++
        be64 (BitVec.ofNat 64 (8 * M.length))) =
        (tailPart M ++ [0x80] ++ List.replicate (63 - M.length % 64) 0) ++
          (List.replicate 56 0 ++ be64 (BitVec.ofNat 64 (8 * M.length))) := by simp
    rw [regroup, blocksOf_append _ _ ⟨1, by simp; omega⟩, blocksOf_one _ (by simp; omega),
      blocksOf_one _ (by simp [be64_length])]
    simp [hashBlocks]

/-! ### The key block -/

/-- `k0` holds the first 64 bytes of the key `K`, zero-extended (R23, R122). -/
theorem keyCapture_k0 {K : List Byte} {a : Arch} (held : a.k0 = blockOfBytes (K.take 64))
    (count : a.len.toNat = K.length) (b : Byte) :
    (keyCapture b a).k0 = blockOfBytes ((K ++ [b]).take 64) := by
  unfold keyCapture
  split
  · rename_i room
    have shortK : K.take 64 = K := List.take_of_length_le (by omega)
    have shortKb : (K ++ [b]).take 64 = K ++ [b] := List.take_of_length_le (by simp; omega)
    have room' : K.length < 64 := by omega
    rw [shortKb, ← blockOfBytes_set K b room']
    simp only [held, shortK, count]
  · rw [held, List.take_append_of_le_length (by omega)]

end Sys2Proof.Machine
end

