-- ==== Sys2Proof/Tests/Slice0.lean ====
section
/-! SUPPORT. Tests of the model against the spec's own vectors (95_test_vectors.md and the rules' examples), each of
one operation or one step, and the states that meet the hypotheses of the statements. -/

namespace Sys2Proof.Tests
open Sys2Proof Sys2Proof.Machine

/-! ### Helpers -/

/-- The next state, if the step has one. -/
def nextState : Result → Option State
  | .next t => some t
  | .fault _ => none
  | .refused _ => none

/-- What a test looks at after one command: phase, cause, LEN and the last response. -/
def glance (r : Result) : Option (Phase × ErrCode × BitVec 64 × Option Word) :=
  (nextState r).map fun t => (t.arch.phase, t.arch.errcode, t.arch.len, t.outbox.getLast?)

/-- The digest of "abc" (R102). -/
def abcDigest : Chain :=
  #v[0xBA7816BF, 0x8F01CFEA, 0x414140DE, 0x5DAE2223, 0xB00361A3, 0x96177A9C, 0xB410FF61, 0xF20015AD]

/-- The bytes of "abc", then zeros. -/
def abcBuf : Block := blockOfBytes [0x61, 0x62, 0x63]

/-- A state in the given phase with the given LEN; BUF begins with "abc", K0 with "key". -/
def sample (p : Phase) (len : BitVec 64) : State :=
  { arch := { h := initialHash, buf := abcBuf, k0 := blockOfBytes [0x6B, 0x65, 0x79], len := len, phase := p,
              errcode := if p = .fault then .of .seq else .none },
    inbox := [], outbox := [] }

/-- The sample state in phase DONE with the digest of "abc". -/
def doneAbc : State :=
  { State.reset with arch := { Arch.reset with h := abcDigest, phase := .done } }

/-- The sample state with one command word waiting. -/
def waiting (p : Phase) (len : BitVec 64) (cw : Word) : State := (sample p len).sending [.command cw]

/-! ### Decoding: the words written out bit by bit from the formats (R71, R73) -/

theorem test_decode_nop : decode 0b00000000000000000000000000000000 = some .nop := by decide
theorem test_decode_clr : decode 0b00000001000000000000000000000000 = some .clr := by decide
theorem test_decode_rdst : decode 0b00000010000000000000000000000000 = some .rdst := by decide
theorem test_decode_hstart : decode 0b00010000000000000000000000000000 = some .hstart := by decide
theorem test_decode_kstart : decode 0b00010001000000000000000000000000 = some .kstart := by decide
theorem test_decode_kend : decode 0b00010010000000000000000000000000 = some .kend := by decide
theorem test_decode_final : decode 0b00010011000000000000000000000000 = some .final := by decide
theorem test_decode_push : decode 0b00100000000000000000000001101011 = some (.push 0x6B) := by decide
theorem test_decode_rdw : decode 0b00110000000000000000000000000110 = some (.rdw 6) := by decide
theorem test_decode_rdb : decode 0b00110001000000000000000000010011 = some (.rdb 19) := by decide

theorem test_encode_words :
    [encode .nop, encode .clr, encode .rdst, encode .hstart, encode .kstart, encode .kend, encode .final,
      encode (.push 0x6B), encode (.rdw 7), encode (.rdb 31)] =
    [0x00000000, 0x01000000, 0x02000000, 0x10000000, 0x11000000, 0x12000000, 0x13000000,
      0x2000006B, 0x30000007, 0x3100001F] := by decide

theorem test_table_word : decodeTableWord 32 0x2000006B = some (.push 0x6B) := by decide

/-! ### Well-formedness smoke tests: an ill-formed word for each must-be-zero field and for the opcode field -/

theorem test_wf_push_accepts : legalWord 0x200000FF = true := by decide
theorem test_wf_formatZ_refuses : legalWord 0x13000001 = false := by decide
theorem test_wf_formatB_refuses : legalWord 0x20000100 = false := by decide
theorem test_wf_formatB_high_refuses : legalWord 0x20800000 = false := by decide
theorem test_wf_formatXW_refuses : legalWord 0x30000008 = false := by decide
theorem test_wf_formatXB_refuses : legalWord 0x31000020 = false := by decide
theorem test_wf_opcode_refuses : legalWord 0x03000000 = false := by decide
theorem test_wf_all_ones_refuses : legalWord 0xFFFFFFFF = false := by decide
theorem test_wf_operand_limits : (Instr.push 0xFF).wf = true ∧ (Instr.rdw 7).wf = true ∧ (Instr.rdb 31).wf = true := by
  decide

/-! ### The datapath (95_test_vectors.md sections 3 and 4) -/

theorem test_rotr : rotr 7 0x61626380 = 0x00C2C4C7 ∧ rotr 25 0x00000001 = 0x00000080 := by decide
theorem test_ch_maj : ch 0x0F0F0F0F 0x12345678 0x9ABCDEF0 = 0x92B4D6F8 ∧
    maj 0x0F0F0F0F 0x12345678 0x9ABCDEF0 = 0x1A3C5E78 := by decide
theorem test_sigmas : bsig0 0x00000018 = 0x00C06006 ∧ bsig1 0x61626380 = 0xC0B865F2 ∧
    ssig0 0x510E527F = 0x601C02A8 ∧ ssig1 0x61626380 = 0x7DA86405 := by decide
theorem test_round_zero_abc : round (Work.ofChain initialHash) 0x428A2F98 0x61626380 =
    ⟨0x5D6AEBCD, 0x6A09E667, 0xBB67AE85, 0x3C6EF372, 0xFA2A4622, 0x510E527F, 0x9B05688C, 0x1F83D9AB⟩ := by decide
theorem test_schedule_abc :
    ((schedule (blockOfBytes (padMessage [0x61, 0x62, 0x63])))[17]?,
      (schedule (blockOfBytes (padMessage [0x61, 0x62, 0x63])))[63]?) =
    (some 0x000F0000, some 0x12B1EDEB) := by decide +kernel
theorem test_compress_ones : compress initialHash (Vector.replicate 64 0xFF) =
    #v[0xEF0C748D, 0xF4DA50A8, 0xD6C43C01, 0x3EDC3CE7, 0x6C9D9FA9, 0xA1458ADE, 0x56EB86C0, 0xA64492D2] := by
  decide +kernel
theorem test_sha256_two_blocks : (sha256 (List.replicate 56 0x61)).toList =
    [0xB3, 0x54, 0x39, 0xA4, 0xAC, 0x6F, 0x09, 0x48, 0xB6, 0xD6, 0xF9, 0xE3, 0xC6, 0xAF, 0x0F, 0x5F,
     0x59, 0x0C, 0xE2, 0x0F, 0x1B, 0xDE, 0x70, 0x90, 0xEF, 0x79, 0x70, 0x68, 0x6E, 0xC6, 0x73, 0x8A] := by
  decide +kernel
theorem test_hmac_empty : (hmac [] []).toList =
    [0xB6, 0x13, 0x67, 0x9A, 0x08, 0x14, 0xD9, 0xEC, 0x77, 0x2F, 0x95, 0xD7, 0x78, 0xC3, 0x5F, 0xC5,
     0xFF, 0x16, 0x97, 0xC4, 0x93, 0x71, 0x56, 0x53, 0xC6, 0xC7, 0x12, 0x14, 0x42, 0x92, 0xC5, 0xAD] := by
  decide +kernel

/-! ### One step of each command -/

theorem test_nop : glance (step (State.reset.withFetchWord 32 0x00000000)) =
    some (.idle, .none, 0, some 0) := by decide
theorem test_clr : (nextState (step (waiting .key 3 0x01000000))).map (·.arch) = some Arch.reset := by decide
theorem test_clr_leaves_fault : glance (step (waiting .fault 0 0x01000000)) = some (.idle, .none, 0, some 0) := by
  decide
theorem test_rdst_done : glance (exec .rdst doneAbc) = some (.done, .none, 0, some 0x00000104) := by decide
theorem test_rdst_fault : glance (exec .rdst (sample .fault 0)) = some (.fault, .of .seq, 0, some 0x00000227) := by
  decide
theorem test_hstart_reset : (nextState (step (State.reset.withFetchWord 32 0x10000000))).map
    (fun t => (t.arch.phase, t.arch.h, t.arch.len)) = some (.hash, initialHash, 0) := by decide
theorem test_hstart_in_hash : glance (exec .hstart (sample .hash 3)) = some (.fault, .of .seq, 0, some 0) := by decide
theorem test_kstart_done : (nextState (exec .kstart doneAbc)).map
    (fun t => (t.arch.phase, t.arch.h, t.arch.k0)) = some (.key, initialHash, zeroBlock) := by decide
theorem test_push_key : (nextState (exec (.push 0x6B) { State.reset with arch := startOperation .key Arch.reset })).map
    (fun t => (t.arch.k0[0], t.arch.buf[0], t.arch.len, t.arch.h)) = some (0x6B, 0x6B, 1, initialHash) := by decide
theorem test_push_lenovf : glance (exec (.push 0x61) (sample .msg 0x1FFFFFFFFFFFFFFF)) =
    some (.fault, .of .lenovf, 0, some 0) := by decide
theorem test_kend_key : (nextState (exec .kend (sample .key 3))).map (fun t => (t.arch.h, t.arch.len, t.arch.phase)) =
    some (#v[0xCE6CC13A, 0x481EE179, 0x741FF12A, 0x377E06DD, 0xA6103E89, 0x64A89364, 0x6C03368B, 0x82DCEB35],
      64, .msg) := by decide +kernel
theorem test_kend_in_hash : glance (exec .kend (sample .hash 3)) = some (.fault, .of .seq, 0, some 0) := by decide
theorem test_final_abc : (nextState (exec .final (sample .hash 3))).map (fun t => (t.arch.h, t.arch.phase, t.arch.k0)) =
    some (abcDigest, .done, zeroBlock) := by decide +kernel
theorem test_final_in_key : glance (exec .final (sample .key 3)) = some (.fault, .of .seq, 0, some 0) := by decide
theorem test_rdw : glance (exec (.rdw 7) doneAbc) = some (.done, .none, 0, some 0xF20015AD) := by decide
theorem test_rdw_in_idle : glance (exec (.rdw 0) State.reset) = some (.fault, .of .seq, 0, some 0) := by decide
theorem test_rdb : glance (exec (.rdb 1) doneAbc) = some (.done, .none, 0, some 0x00000078) := by decide
theorem test_rdb_last : glance (exec (.rdb 31) doneAbc) = some (.done, .none, 0, some 0x000000AD) := by decide
theorem test_illegal_in_hash : glance (step (waiting .hash 3 0xFFFFFFFF)) = some (.fault, .of .illcmd, 0, some 0) := by
  decide
theorem test_illegal_in_fault : glance (step (waiting .fault 0 0xFFFFFFFF)) = some (.fault, .of .seq, 0, some 0) := by
  decide
theorem test_reset_event : (nextState (step ((sample .msg 70).sending [.reset]))).map (fun t => (t.arch, t.outbox)) =
    some (Arch.reset, []) := by decide

/-- R108's examples: L = 56 takes two in Finish, L = 64 one in Absorb and one in Finish. -/
theorem test_compressions :
    (countedFinish (countedStream (List.replicate 56 0x61) Arch.reset)).count = 2 ∧
    (countedStream (List.replicate 64 0x61) Arch.reset).count = 1 ∧
    (countedFinish (countedStream (List.replicate 64 0x61) Arch.reset)).count = 2 := by decide +kernel

/-! ### The assembler (R77, R78) -/

theorem test_asm_listing : listingLine (.push 0x6B) =
    ['2', '0', '0', '0', '0', '0', '6', 'B', ' ', ' ', 'P', 'U', 'S', 'H', ' ', '0', 'x', '6', 'B'] := by decide
theorem test_asm_hmac : assembleLine ['H', 'M', 'A', 'C', ' ', '"', '6', 'B', '"', ',', ' ', '"', '"'] =
    some [.kstart, .push 0x6B, .kend, .final] := by decide
theorem test_asm_out_of_range : assembleLine ['R', 'D', 'W', ' ', '8'] = none := by decide
theorem test_asm_comment : assembleLine ['P', 'U', 'S', 'H', 'S', ' ', '\'', ';', '\'', ' ', ';', 'x'] =
    some [.push 0x3B] := by decide

/-! ### Witnesses: concrete states and operands that meet the hypotheses of each statement, clause by clause -/

theorem witness_ResetEvent : ((sample .key 3).sending [.reset]).inbox = .reset :: [] := rfl
theorem witness_IdleHoldsState : (sample .msg 70).inbox = [] := rfl
theorem witness_StepRunsDecoded : (waiting .hash 3 0x2000006B).inbox = .command 0x2000006B :: [] ∧
    decode 0x2000006B = some (.push 0x6B) ∧ (Instr.push 0x6B).wf = true := ⟨rfl, by decide, by decide⟩
theorem witness_DecodeEncodeAgree : decode 0x3100001F = some (.rdb 31) := by decide
theorem witness_OpcodeMap : (⟨"RDB", 0x31000000, 0xFFFFFFE0, 32⟩ : OpcodeRow) ∈ opcodeTable := by decide
theorem witness_OperandFields : decode 0x200000FF = some (.push 255) ∧ decode 0x30000007 = some (.rdw 7) ∧
    decode 0x3100001F = some (.rdb 31) := by decide
theorem witness_PseudoExpansions :
    (∀ c ∈ [' ', '~', ';', '"'], 0x20 ≤ c.toNat ∧ c.toNat ≤ 0x7E ∧ c ≠ '\'') ∧
    '\'' ∉ ['a', '\t'] ∧ (∃ c ∈ ['a', '\t'], c.toNat < 0x20 ∨ 0x7E < c.toNat) ∧
    '\'' ∉ ['\x7F'] ∧ (∃ c ∈ ['\x7F'], c.toNat < 0x20 ∨ 0x7E < c.toNat) := by simp
theorem witness_IllegalWord : (waiting .hash 3 0x20000100).inbox = .command 0x20000100 :: [] ∧
    (∀ r ∈ opcodeTable, (0x20000100 : Word) &&& r.mask ≠ r.pattern) ∧
    (waiting .hash 3 0x20000100).arch.phase ≠ .fault ∧ (waiting .fault 0 0x20000100).arch.phase = .fault :=
  ⟨rfl, by decide, by decide, rfl⟩
/-- Also the invariants that RdstResult and InvKeptByStep assume. -/
theorem witness_RdstResult : (startOperation .hash Arch.reset).Inv := by
  constructor <;> simp [Phase.code]
theorem witness_ClrResult : (sample .fault 0).arch.phase = .fault ∧ (sample .key 3).arch.phase = .key ∧
    exec .clr (sample .fault 0) = .next { arch := Arch.reset, inbox := [], outbox := [0] } ∧
    exec .clr (sample .key 3) = .next { arch := Arch.reset, inbox := [], outbox := [0] } ∧
    Arch.reset.phase ≠ .fault := ⟨rfl, rfl, rfl, rfl, by decide⟩
theorem witness_ClrResult_kept : (sample .key 3).arch.phase = .key ∧ (sample .hash 3).arch.phase = .hash ∧
    (sample .msg 70).arch.phase = .msg ∧
    exec (.push 0x61) (sample .key 3) = .next
      { arch := pushByte 0x61 (sample .key 3).arch, inbox := [], outbox := [0] } ∧
    exec .kend (sample .key 3) = .next { arch := endKey (sample .key 3).arch, inbox := [], outbox := [0] } ∧
    exec .kstart (sample .hash 3) = .next { arch := faultEntry .seq, inbox := [], outbox := [0] } ∧
    exec .final (sample .msg 70) = .next
      { arch := endMessage (sample .msg 70).arch, inbox := [], outbox := [0] } :=
  ⟨rfl, rfl, rfl, rfl, rfl, rfl, rfl⟩
theorem witness_HstartResult : (sample .idle 0).arch.phase = .idle ∧ (sample .done 0).arch.phase = .done ∧
    (sample .hash 3).arch.phase = .hash ∧ (sample .key 3).arch.phase = .key ∧ (sample .msg 64).arch.phase = .msg ∧
    (sample .fault 0).arch.phase = .fault := by decide
theorem witness_KstartResult : doneAbc.arch.phase = .done ∧ State.reset.arch.phase = .idle ∧
    (sample .hash 63).arch.phase = .hash ∧ (sample .key 64).arch.phase = .key ∧ (sample .msg 65).arch.phase = .msg ∧
    (sample .fault 0).arch.phase = .fault := by decide
theorem witness_PushResult :
    ((sample .key 63).arch.phase = .key ∧ (sample .key 63).arch.len ≠ 0x1FFFFFFFFFFFFFFF) ∧
    ((sample .hash 0x1FFFFFFFFFFFFFFE).arch.phase = .hash ∧
      (sample .hash 0x1FFFFFFFFFFFFFFE).arch.len ≠ 0x1FFFFFFFFFFFFFFF) ∧
    ((sample .msg 0x1FFFFFFFFFFFFFFF).arch.phase = .msg ∧
      (sample .msg 0x1FFFFFFFFFFFFFFF).arch.len = 0x1FFFFFFFFFFFFFFF) ∧
    (sample .idle 0).arch.phase = .idle ∧ (sample .fault 0).arch.phase = .fault := by decide
theorem witness_KendResult :
    ((sample .key 64).arch.phase = .key ∧ (sample .key 64).arch.k0 =
      (if 64 < (sample .key 64).arch.len.toNat
        then blockOfBytes ((digestBytes (finish (sample .key 64).arch).h).toList ++ List.replicate 32 0)
        else (sample .key 64).arch.k0)) ∧
    ((sample .key 65).arch.phase = .key ∧ 64 < (sample .key 65).arch.len.toNat) ∧
    (sample .idle 0).arch.phase = .idle ∧ (sample .fault 0).arch.phase = .fault :=
  ⟨⟨rfl, rfl⟩, ⟨rfl, by decide⟩, rfl, rfl⟩
theorem witness_FinalResult : (sample .hash 3).arch.phase = .hash ∧ (sample .msg 120).arch.phase = .msg ∧
    (sample .idle 0).arch.phase = .idle ∧ (sample .key 3).arch.phase = .key ∧ (sample .done 0).arch.phase = .done ∧
    (sample .fault 0).arch.phase = .fault := by decide
theorem witness_RdwResult : doneAbc.arch.phase = .done ∧ (sample .idle 0).arch.phase = .idle ∧
    (sample .msg 64).arch.phase = .msg ∧ (sample .fault 0).arch.phase = .fault := by decide
theorem witness_RdbResult : doneAbc.arch.phase = .done ∧ (sample .hash 3).arch.phase = .hash ∧
    (sample .key 0).arch.phase = .key ∧ (sample .fault 0).arch.phase = .fault := by decide
theorem witness_ReadoutViewsAgree : doneAbc.arch.phase = .done := rfl
theorem witness_FaultEntry : (waiting .done 0 0x13000000).inbox = .command 0x13000000 :: [] ∧
    (waiting .done 0 0x13000000).arch.phase ≠ .fault ∧
    step (waiting .done 0 0x13000000) = .next { arch := faultEntry .seq, inbox := [], outbox := [0] } ∧
    (faultEntry .seq).phase = .fault := ⟨rfl, by decide, rfl, rfl⟩
theorem witness_LenMaxReachedNotPassed : (sample .hash 0x1FFFFFFFFFFFFFFE).arch.phase = .hash ∧
    (sample .hash 0x1FFFFFFFFFFFFFFE).arch.len.toNat = 2 ^ 61 - 2 ∧
    (sample .hash 0x1FFFFFFFFFFFFFFF).arch.len.toNat = 2 ^ 61 - 1 := by decide
theorem witness_FaultPhase : (waiting .fault 0 0x01000000).arch.phase = .fault ∧
    (waiting .fault 0 0x01000000).inbox = .command 0x01000000 :: [] ∧ decode 0x01000000 = some .clr ∧
    decode 0x02000000 = some .rdst ∧ decode 0xFFFFFFFF ≠ some .clr ∧ decode 0xFFFFFFFF ≠ some .rdst := by decide
theorem witness_FaultSticky : (sample .fault 0).arch.phase = .fault ∧
    ∀ e ∈ [HostEvent.command 0x10000000, .command 0x02000000, .command 0xFFFFFFFF], e.clears = false := by decide
theorem witness_FaultExits : (waiting .fault 0 0x01000000).arch.phase = .fault ∧
    step (waiting .fault 0 0x01000000) = .next { arch := Arch.reset, inbox := [], outbox := [0] } ∧
    Arch.reset.phase ≠ .fault := ⟨rfl, rfl, by decide⟩
theorem witness_PhaseTableHolds : (waiting .hash 3 0x20000061).inbox = .command 0x20000061 :: [] ∧
    phaseTable (decode 0x20000061) (waiting .hash 3 0x20000061).arch.phase = .afterOrLenovf .hash ∧
    phaseTable (decode 0x10000000) .done = .after .hash ∧ phaseTable (decode 0x13000000) .key = .raises .seq ∧
    phaseTable (decode 0xFFFFFFFF) .fault = .ignored := by decide
theorem witness_FlagRules :
    step (doneAbc.sending [.command 0x10000000]) = .next
      { arch := startOperation .hash doneAbc.arch, inbox := [], outbox := [0] } ∧
    flagDV doneAbc.arch.phase = 1 ∧ flagDV (startOperation .hash doneAbc.arch).phase = 0 := ⟨rfl, rfl, rfl⟩
theorem witness_FlagRules_set : step (waiting .hash 3 0x13000000) = .next
      { arch := endMessage (sample .hash 3).arch, inbox := [], outbox := [0] } ∧
    flagDV (sample .hash 3).arch.phase = 0 ∧ flagDV (endMessage (sample .hash 3).arch).phase = 1 :=
  ⟨rfl, rfl, rfl⟩
theorem witness_FlagRules_fault : step (waiting .idle 0 0x13000000) = .next
      { arch := faultEntry .seq, inbox := [], outbox := [0] } ∧
    flagERR (sample .idle 0).arch.phase = 0 ∧ flagERR (faultEntry .seq).phase = 1 ∧
    step (waiting .fault 0 0x01000000) = .next { arch := Arch.reset, inbox := [], outbox := [0] } ∧
    flagERR (sample .fault 0).arch.phase = 1 ∧ flagERR Arch.reset.phase = 0 := ⟨rfl, rfl, rfl, rfl, rfl, rfl⟩
theorem witness_InvKeptByStep :
    step ({ State.reset with arch := startOperation .hash Arch.reset }.sending [.command 0x20000061]) = .next
      { arch := pushByte 0x61 (startOperation .hash Arch.reset), inbox := [], outbox := [0] } := rfl
theorem witness_KeyErased : (waiting .key 3 0x13000000).arch.phase = .key ∧
    step (waiting .key 3 0x13000000) = .next { arch := faultEntry .seq, inbox := [], outbox := [0] } ∧
    (faultEntry .seq).phase ≠ .key ∧ (faultEntry .seq).phase ≠ .msg ∧ (faultEntry .seq).phase ≠ .done :=
  ⟨rfl, rfl, by decide, by decide, by decide⟩
theorem witness_ResponsesConfined :
    (waiting .key 3 0x31000000).inbox = .command 0x31000000 :: [] ∧
    (waiting .key 70 0x31000000).inbox = .command 0x31000000 :: [] ∧
    (waiting .key 3 0x31000000).arch.phase = (waiting .key 70 0x31000000).arch.phase ∧
    (waiting .key 3 0x31000000).arch.errcode = (waiting .key 70 0x31000000).arch.errcode ∧
    doneAbc.arch.phase = .done ∧ doneAbc.arch.h = doneAbc.arch.h ∧
    (waiting .key 3 0x31000000).arch ≠ (waiting .key 70 0x31000000).arch := by decide
theorem witness_DataNeverSteers :
    (waiting .key 3 0x20000061).inbox.map HostEvent.shape = (waiting .key 3 0x200000FF).inbox.map HostEvent.shape ∧
    (waiting .key 3 0x20000061).arch.phase = (waiting .key 3 0x200000FF).arch.phase ∧
    (waiting .key 3 0x20000061).arch.errcode = (waiting .key 3 0x200000FF).arch.errcode ∧
    (waiting .key 3 0x20000061).arch.len = (waiting .key 3 0x200000FF).arch.len := by decide
theorem witness_WordArithmetic : 0 < 2 ∧ 2 < 32 ∧ 0 < 25 ∧ 25 < 32 := by decide
theorem witness_ConstantsFromPrimes :
    ((List.range 312).filter fun p => decide (Nat.Prime p))[63]? = some 311 ∧
    ((List.range 312).filter fun p => decide (Nat.Prime p))[7]? = some 19 := by decide +kernel
theorem witness_ScheduleRecurrence : 16 ≤ 16 ∧ 16 < 64 ∧ 16 ≤ 63 ∧ 63 < 64 := by decide
theorem witness_CompressRounds : 0 < 64 ∧ 63 < 64 := by decide
theorem witness_LengthFieldPlaced : (⟨55, by decide⟩ : Fin 64).val < 56 := by decide
theorem witness_FinishPadding : 55 = (sample .hash 55).arch.len.toNat % 64 ∧ 55 < 56 ∧
    56 = (sample .hash 120).arch.len.toNat % 64 ∧ 56 ≤ 56 := by decide
theorem witness_Sha256Procedures : ([0x61, 0x62, 0x63] : List Byte).length < 2 ^ 61 := by decide
theorem witness_CompressionCount :
    (List.replicate 119 (0x61 : Byte)).length % 64 ≤ 55 ∧ (List.replicate 119 (0x61 : Byte)).length < 2 ^ 61 ∧
    56 ≤ (List.replicate 120 (0x61 : Byte)).length % 64 ∧ (List.replicate 120 (0x61 : Byte)).length < 2 ^ 61 := by
  decide
theorem witness_CompressionsPerCommand : (sample .key 63).arch.phase = .key ∧
    (sample .key 63).arch.len ≠ 0x1FFFFFFFFFFFFFFF ∧ (sample .hash 55).arch.phase = .hash ∧
    (sample .msg 120).arch.phase = .msg := by decide
theorem witness_KeyCaptured : doneAbc.arch.phase = .done ∧ ([0x6B, 0x65, 0x79] : List Byte).length ≤ 2 ^ 61 - 1 := by
  decide
theorem witness_KeyTrailingZeros : ([0x01, 0x02, 0x03] : List Byte).length + 2 ≤ 64 := by decide
theorem witness_HashOperation : State.reset.arch.phase = .idle ∧ ([0x61, 0x62, 0x63] : List Byte).length ≤ 2 ^ 61 - 1 := by
  decide
theorem witness_HmacOperation : doneAbc.arch.phase = .done ∧
    ([0x6B, 0x65, 0x79] : List Byte).length ≤ 2 ^ 61 - 1 ∧ ([0x54, 0x68] : List Byte).length ≤ 2 ^ 61 - 65 := by decide
theorem witness_DigestReadOut : doneAbc.arch.phase = .done := rfl

end Sys2Proof.Tests
end

/-! The scope statements: what one step does with the oldest event (R6, R74, R76, R195). -/

namespace Sys2Proof.Machine

/-- The command port hands the word and the state without it to `runWord` (R6). -/
theorem step_command {s : State} {cw : Word} {rest : List HostEvent} (waits : s.inbox = .command cw :: rest) :
    step s = runWord cw { s with inbox := rest } := by
  simp only [step, serveHost, waits, runEvent]

/-- A legal word does what its command does (R74). -/
theorem runWord_of_decode {cw : Word} {i : Instr} (read : decode cw = some i) (s : State) :
    runWord cw s = exec i s := by
  simp only [runWord, read]

@[simp] theorem afterEvent_command_outbox (cw : Word) (s : State) :
    (afterEvent (.command cw) s).outbox = s.outbox ++ [(wordEffect cw s.arch).2] := rfl

@[simp] theorem afterEvent_reset_outbox (s : State) : (afterEvent .reset s).outbox = s.outbox := rfl

/-- Settles O4: the word is taken by `step_command` and decoded by `runWord_of_decode`. The hypothesis
on `wf` is not needed. -/
theorem stepRunsDecoded : Obligations.StepRunsDecoded := by
  intro s cw rest i waits read _
  exact (step_command waits).trans (runWord_of_decode read _)

/-- Settles O5, by cases on the inbox and on its oldest event: a step with an event waiting ends in `afterEvent`
(`step_cons`), and the one response of a command word is that of `wordEffect`. -/
theorem stepTotal : Obligations.StepTotal := by
  intro s
  rcases waits : s.inbox with _ | ⟨e, rest⟩
  case nil => exact ⟨s, step_nil s waits, by simp [waits], rfl⟩
  case cons =>
    refine ⟨afterEvent e { s with inbox := rest }, step_cons s e rest waits, by simp, ?_⟩
    cases e with
    | reset => exact afterEvent_reset_outbox _
    | command cw => exact ⟨_, afterEvent_command_outbox cw _⟩

end Sys2Proof.Machine

/-! What one event can do to the architectural state, said once, and the family of statements on the state: reset
values, flags, invariants, confinement (R20 to R36). -/

namespace Sys2Proof.Machine

/-! ### What one event can do -/

/-- The ways an event can change the architectural state `a`: one constructor for each kind of effect, with the event
and the phase that allow it (R140, R185 to R189, R210). -/
inductive EventEffect (a : Arch) : HostEvent → Arch → Prop where
  /-- Nothing: NOP, RDST, RDW, RDB in DONE, and a word ignored in FAULT. -/
  | held (e : HostEvent) : EventEffect a e a
  /-- The reset input (R210). -/
  | reset : EventEffect a .reset Arch.reset
  /-- CLR (R164). -/
  | clr {cw : Word} (read : decode cw = some .clr) : EventEffect a (.command cw) Arch.reset
  /-- Fault entry (R185). -/
  | faulted (cw : Word) (c : Cause) : EventEffect a (.command cw) (faultEntry c)
  /-- HSTART (R141). -/
  | hstart {cw : Word} (read : decode cw = some .hstart) (legal : a.phase ∈ [.idle, .done]) :
      EventEffect a (.command cw) (startOperation .hash a)
  /-- KSTART (R142). -/
  | kstart {cw : Word} (read : decode cw = some .kstart) (legal : a.phase ∈ [.idle, .done]) :
      EventEffect a (.command cw) (startOperation .key a)
  /-- An accepted PUSH (R143). -/
  | push {cw : Word} {b : Byte} (read : decode cw = some (.push b)) (legal : a.phase ∈ [.hash, .key, .msg])
      (room : a.len ≠ Config.lenMax) : EventEffect a (.command cw) (pushByte b a)
  /-- KEND (R144). -/
  | kend {cw : Word} (read : decode cw = some .kend) (legal : a.phase = .key) :
      EventEffect a (.command cw) (endKey a)
  /-- FINAL (R145). -/
  | final {cw : Word} (read : decode cw = some .final) (legal : a.phase ∈ [.hash, .msg]) :
      EventEffect a (.command cw) (endMessage a)

/-- A command guarded by its phases ends as the order of the checks says (R187). -/
theorem eventEffect_guarded {a : Arch} {cw : Word} {legal : List Phase} {out : Arch × Word}
    (accepted : a.phase ∈ legal → EventEffect a (.command cw) out.1) :
    EventEffect a (.command cw) (effect.guarded legal a out).1 := by
  unfold effect.guarded
  split_ifs with ignored inside
  · exact .held _
  · exact accepted inside
  · exact .faulted cw .seq

theorem eventEffect_wordEffect (cw : Word) (a : Arch) : EventEffect a (.command cw) (wordEffect cw a).1 := by
  unfold wordEffect
  cases read : decode cw with
  | none =>
    dsimp only
    split_ifs
    · exact .held _
    · exact .faulted cw .illcmd
  | some i =>
    cases i with
    | nop | rdst => exact .held _
    | clr => exact .clr read
    | hstart => exact eventEffect_guarded (.hstart read)
    | kstart => exact eventEffect_guarded (.kstart read)
    | kend => exact eventEffect_guarded fun legal => .kend read (List.mem_singleton.mp legal)
    | final => exact eventEffect_guarded (.final read)
    | rdw | rdb => exact eventEffect_guarded fun _ => .held _
    | push b =>
      refine eventEffect_guarded fun legal => ?_
      split_ifs with full
      · exact .faulted cw .lenovf
      · exact .push read legal full

theorem eventEffect_afterEvent (e : HostEvent) (s : State) : EventEffect s.arch e (afterEvent e s).arch := by
  cases e with
  | reset => exact .reset
  | command cw => exact eventEffect_wordEffect cw s.arch

/-- Inversion of a step on the architectural state: it is held, or the oldest event has its effect. -/
theorem step_eventEffect {s t : State} (ran : step s = .next t) :
    t.arch = s.arch ∨ ∃ e, s.inbox.head? = some e ∧ EventEffect s.arch e t.arch := by
  obtain ⟨-, rfl⟩ | ⟨e, rest, waits, rfl⟩ := step_cases s t ran
  · exact .inl rfl
  · exact .inr ⟨e, by rw [waits]; rfl, eventEffect_afterEvent e { s with inbox := rest }⟩

/-! ### The invariants, state by state -/

theorem Phase.code_legal (p : Phase) : p.code ∈ [0, 1, 2, 3, 4, 7] := by cases p <;> decide

theorem ErrCode.code_legal {e : ErrCode} (fault : e ≠ .none) : e.code ∈ [1, 2, 3] := by
  cases e with
  | none => exact absurd rfl fault
  | of c => cases c <;> decide

/-- BUF is zero from the fill level on (R32 (g)). -/
def Arch.BufTailZero (a : Arch) : Prop := ∀ j : Fin 64, a.len.toNat % 64 ≤ j.val → a.buf[j.val] = 0

/-- K0 is zero from the captured bytes on (R32 (h)). -/
def Arch.KeyTailZero (a : Arch) : Prop := ∀ j : Fin 64, min a.len.toNat 64 ≤ j.val → a.k0[j.val] = 0

/-- Outside a fault the invariants leave no error code (R32 (b)). -/
theorem Arch.Inv.errcode_eq_none {a : Arch} (inv : a.Inv) (live : a.phase ≠ .fault) : a.errcode = .none := by
  by_contra set
  exact live (inv.errcode_iff_fault.mp set)

/-- So a command that is not legal in FAULT finds no error code when it is accepted. -/
theorem Arch.Inv.errcode_eq_none_of_legal {a : Arch} (inv : a.Inv) {legal : List Phase} (accepted : a.phase ∈ legal)
    (live : .fault ∉ legal) : a.errcode = .none :=
  inv.errcode_eq_none fun fault => live (fault ▸ accepted)

/-- Between operations the invariants ask for cleared registers (R32 (d), (e)). -/
theorem Arch.inv_of_resting {a : Arch} (resting : a.phase = .idle ∨ a.phase = .done ∨ a.phase = .fault)
    (err : a.errcode ≠ .none ↔ a.phase = .fault) (buf : a.buf = zeroBlock) (k0 : a.k0 = zeroBlock) (len : a.len = 0)
    (chain : a.phase ≠ .done → a.h = zeroChain) : a.Inv where
  phase_legal := a.phase.code_legal
  errcode_iff_fault := err
  errcode_legal := ErrCode.code_legal
  len_le := by simp [len]
  rest_clear _ := ⟨buf, k0, len⟩
  chain_clear := by rintro (idle | fault) <;> exact chain (by simp [*])
  hash_no_key _ := k0
  buf_tail _ j _ := by simp [buf]
  key_tail _ j _ := by simp [k0]
  msg_len msg := by simp [msg] at resting

/-- Inside an operation the invariants speak of LEN, BUF and K0 (R32 (c), (f) to (i)). -/
theorem Arch.inv_of_absorbing {a : Arch} (absorbing : a.phase ∈ [.hash, .key, .msg]) (err : a.errcode = .none)
    (len_le : a.len.toNat ≤ 2 ^ 61 - 1) (hash_no_key : a.phase = .hash → a.k0 = zeroBlock)
    (buf_tail : a.BufTailZero) (key_tail : a.phase = .key → a.KeyTailZero)
    (msg_len : a.phase = .msg → 64 ≤ a.len.toNat) : a.Inv where
  phase_legal := a.phase.code_legal
  errcode_iff_fault := by
    constructor
    · exact fun set => absurd err set
    · intro fault; simp [fault] at absorbing
  errcode_legal := ErrCode.code_legal
  len_le := len_le
  rest_clear := by rintro (rest | rest | rest) <;> simp [rest] at absorbing
  chain_clear := by rintro (rest | rest) <;> simp [rest] at absorbing
  hash_no_key := hash_no_key
  buf_tail _ := buf_tail
  key_tail := key_tail
  msg_len := msg_len

theorem inv_reset : Arch.reset.Inv :=
  Arch.inv_of_resting (.inl rfl) (by simp) rfl rfl rfl fun _ => rfl

theorem inv_faultEntry (c : Cause) : (faultEntry c).Inv :=
  Arch.inv_of_resting (.inr (.inr rfl)) (by simp) rfl rfl rfl fun _ => rfl

theorem inv_endMessage {a : Arch} (err : a.errcode = .none) : (endMessage a).Inv :=
  Arch.inv_of_resting (.inr (.inl rfl)) (by simp [err]) (by simp) (by simp) (by simp) (by simp)

theorem inv_startOperation {a : Arch} {p : Phase} (starts : p = .hash ∨ p = .key) (err : a.errcode = .none) :
    (startOperation p a).Inv :=
  Arch.inv_of_absorbing (by simpa using starts.imp_right .inl) err (by simp) (fun _ => rfl)
    (fun j _ => by simp) (fun _ j _ => by simp) (by rintro rfl; simp at starts)

/-! ### Absorbing keeps what lies above the fill level zero -/

theorem toNat_add_one_mod_64 (v : BitVec 64) : (v + 1).toNat % 64 = (v.toNat + 1) % 64 := by
  bv_omega

theorem bufTailZero_absorb {a : Arch} (tail : a.BufTailZero) (b : Byte) : (absorb b a).BufTailZero := by
  intro j above
  rw [absorb_len, toNat_add_one_mod_64] at above
  unfold absorb
  split_ifs with full
  · simp
  · have room : (a.len.toNat + 1) % 64 ≠ 0 := fun zero =>
      full (Fin.ext ((toNat_add_one_mod_64 a.len).trans zero))
    have elsewhere : a.len.toNat % 64 ≠ j.val := by omega
    simp only [appendByte_buf, memWrite1, fill]
    rw [Vector.getElem_set_ne _ _ elsewhere]
    exact tail j (by omega)

theorem bufTailZero_absorbAll {a : Arch} (tail : a.BufTailZero) (bs : List Byte) :
    (absorbAll bs a).BufTailZero := by
  induction bs generalizing a with
  | nil => exact tail
  | cons b bs ih => exact ih (bufTailZero_absorb tail b)

theorem bufTailZero_hInit (a : Arch) : (hInit a).BufTailZero := fun j _ => by simp

theorem bufTailZero_pushByte {a : Arch} (tail : a.BufTailZero) (b : Byte) : (pushByte b a).BufTailZero := by
  unfold pushByte
  split_ifs
  · exact bufTailZero_absorb (by simpa [Arch.BufTailZero] using tail) b
  · exact bufTailZero_absorb tail b

theorem keyTailZero_keyCapture {a : Arch} (tail : a.KeyTailZero) (b : Byte) (j : Fin 64)
    (above : min (a.len.toNat + 1) 64 ≤ j.val) : (keyCapture b a).k0[j.val] = 0 := by
  unfold keyCapture
  split_ifs with room
  · have elsewhere : a.len.toNat ≠ j.val := by omega
    simp only [Vector.getElem_set_ne _ _ elsewhere]
    exact tail j (by omega)
  · exact tail j (by omega)

theorem pushByte_k0_of_key {a : Arch} (key : a.phase = .key) (b : Byte) :
    (pushByte b a).k0 = (keyCapture b a).k0 := by
  simp [pushByte, key]

theorem pushByte_k0_of_not_key {a : Arch} (other : a.phase ≠ .key) (b : Byte) : (pushByte b a).k0 = a.k0 := by
  simp [pushByte, other]

theorem inv_pushByte {a : Arch} (inv : a.Inv) (legal : a.phase ∈ [.hash, .key, .msg])
    (room : a.len ≠ Config.lenMax) (b : Byte) : (pushByte b a).Inv := by
  have err : a.errcode = .none := inv.errcode_eq_none_of_legal legal (by decide)
  have absorbing : a.phase = .hash ∨ a.phase = .key ∨ a.phase = .msg := by simpa using legal
  have len_next : (pushByte b a).len.toNat = a.len.toNat + 1 ∧ a.len.toNat + 1 ≤ 2 ^ 61 - 1 := by
    have bound := inv.len_le
    have differs : a.len.toNat ≠ 2 ^ 61 - 1 := fun same => room (BitVec.eq_of_toNat_eq same)
    rw [pushByte_len, BitVec.toNat_add_of_lt] <;> simp <;> omega
  obtain ⟨len_eq, len_le⟩ := len_next
  apply Arch.inv_of_absorbing
  case absorbing => simpa using legal
  case err => simpa using err
  case len_le => omega
  case hash_no_key =>
    intro hash
    rw [pushByte_phase] at hash
    rw [pushByte_k0_of_not_key (by simp [hash])]
    exact inv.hash_no_key hash
  case buf_tail => exact bufTailZero_pushByte (inv.buf_tail absorbing) b
  case key_tail =>
    intro key j above
    rw [pushByte_phase] at key
    simp only [pushByte_k0_of_key key]
    exact keyTailZero_keyCapture (inv.key_tail key) b j (by omega)
  case msg_len =>
    intro msg
    rw [pushByte_phase] at msg
    have enough := inv.msg_len msg
    omega

/-- KEND leaves LEN at the 64 bytes of the inner pad (R124). -/
@[simp] theorem endKey_len (a : Arch) : (endKey a).len = 64 := by
  simp [endKey, innerStart, xorPad]

theorem bufTailZero_endKey (a : Arch) : (endKey a).BufTailZero :=
  bufTailZero_absorbAll (bufTailZero_hInit _) _

theorem inv_endKey {a : Arch} (err : a.errcode = .none) : (endKey a).Inv :=
  Arch.inv_of_absorbing (by simp) (by simpa using err) (by simp) (by simp) (bufTailZero_endKey a) (by simp) (by simp)

/-- Every effect of an event keeps the invariants of R32. -/
theorem EventEffect.inv {a a' : Arch} {e : HostEvent} (happens : EventEffect a e a') (inv : a.Inv) : a'.Inv := by
  cases happens with
  | held => exact inv
  | reset | clr => exact inv_reset
  | faulted _ c => exact inv_faultEntry c
  | hstart _ legal => exact inv_startOperation (.inl rfl) (inv.errcode_eq_none_of_legal legal (by decide))
  | kstart _ legal => exact inv_startOperation (.inr rfl) (inv.errcode_eq_none_of_legal legal (by decide))
  | push _ legal room => exact inv_pushByte inv legal room _
  | kend _ legal => exact inv_endKey (inv.errcode_eq_none (by simp [legal]))
  | final _ legal => exact inv_endMessage (inv.errcode_eq_none_of_legal legal (by decide))

/-- Settles O34, by the effects a step can have (`step_eventEffect`), each of which keeps the invariants. -/
theorem invKeptByStep : Obligations.InvKeptByStep := by
  intro s t inv ran
  obtain same | ⟨e, -, happens⟩ := step_eventEffect ran
  · exact same ▸ inv
  · exact happens.inv inv

/-- Settles O33. -/
theorem invAtReset : Obligations.InvAtReset := inv_reset

/-- The invariants hold along every run (R32). -/
theorem inv_afterEvents {s : State} (inv : s.arch.Inv) (es : List HostEvent) : (afterEvents es s).arch.Inv := by
  induction es generalizing s with
  | nil => exact inv
  | cons e es ih => exact ih ((eventEffect_afterEvent e s).inv inv)

/-- Settles O35: the run over `es` ends in `afterEvents es`, and the invariants hold at reset and after each event. -/
theorem invReachable : Obligations.InvReachable := by
  intro es
  exact ⟨_, runInbox_sending es State.reset, inv_afterEvents inv_reset es⟩

/-! ### The flags -/

@[simp] theorem flagDV_eq_one (p : Phase) : flagDV p = 1 ↔ p = .done := by cases p <;> decide
@[simp] theorem flagDV_eq_zero (p : Phase) : flagDV p = 0 ↔ p ≠ .done := by cases p <;> decide
@[simp] theorem flagERR_eq_one (p : Phase) : flagERR p = 1 ↔ p = .fault := by cases p <;> decide
@[simp] theorem flagERR_eq_zero (p : Phase) : flagERR p = 0 ↔ p ≠ .fault := by cases p <;> decide

/-- Only FINAL leads into DONE (R28). -/
theorem EventEffect.final_of_enters_done {a a' : Arch} {e : HostEvent} (happens : EventEffect a e a')
    (before : a.phase ≠ .done) (after : a'.phase = .done) : ∃ cw, e = .command cw ∧ decode cw = some .final := by
  cases happens with
  | final read => exact ⟨_, rfl, read⟩
  | held => exact absurd after before
  | push => exact absurd (by simpa using after) before
  | reset | clr | faulted | hstart | kstart | kend => simp at after

/-- Only fault entry, reset, CLR and the start of an operation lead out of DONE (R28). -/
theorem EventEffect.cause_of_leaves_done {a a' : Arch} {e : HostEvent} (happens : EventEffect a e a')
    (before : a.phase = .done) (after : a'.phase ≠ .done) :
    (∃ c, a' = faultEntry c) ∨ e = .reset ∨ ∃ cw, e = .command cw ∧
      (decode cw = some .hstart ∨ decode cw = some .kstart ∨ decode cw = some .clr) := by
  cases happens with
  | held => exact absurd before after
  | reset => exact .inr (.inl rfl)
  | clr read => exact .inr (.inr ⟨_, rfl, .inr (.inr read)⟩)
  | faulted _ c => exact .inl ⟨c, rfl⟩
  | hstart read => exact .inr (.inr ⟨_, rfl, .inl read⟩)
  | kstart read => exact .inr (.inr ⟨_, rfl, .inr (.inl read)⟩)
  | push _ legal | kend _ legal | final _ legal => simp [before] at legal

/-- Only fault entry leads into FAULT (R28). -/
theorem EventEffect.faultEntry_of_enters_fault {a a' : Arch} {e : HostEvent} (happens : EventEffect a e a')
    (before : a.phase ≠ .fault) (after : a'.phase = .fault) : ∃ c, a' = faultEntry c := by
  cases happens with
  | faulted _ c => exact ⟨c, rfl⟩
  | held => exact absurd after before
  | push => exact absurd (by simpa using after) before
  | reset | clr | hstart | kstart | kend | final => simp at after

/-- Only reset and CLR lead out of FAULT (R28, R189). -/
theorem EventEffect.clears_of_leaves_fault {a a' : Arch} {e : HostEvent} (happens : EventEffect a e a')
    (before : a.phase = .fault) (after : a'.phase ≠ .fault) : e.clears = true := by
  cases happens with
  | reset => rfl
  | clr read => simp [HostEvent.clears, read]
  | held => exact absurd before after
  | faulted => exact absurd rfl after
  | hstart _ legal | kstart _ legal | push _ legal | kend _ legal | final _ legal => simp [before] at legal

/-- Settles O32: the flags are read from PHASE, and each clause is the list of effects that enter or leave DONE or
FAULT. -/
theorem flagRules : Obligations.FlagRules := by
  refine ⟨fun p => ⟨flagDV_eq_one p, flagERR_eq_one p⟩, fun s t ran => ?_⟩
  simp only [flagDV_eq_one, flagDV_eq_zero, flagERR_eq_one, flagERR_eq_zero]
  obtain same | ⟨e, waits, happens⟩ := step_eventEffect ran
  · rw [same]
    exact ⟨fun before after => absurd after before, fun before after => absurd before after,
      fun before after => absurd after before, fun before after => absurd before after⟩
  · simp only [waits, Option.some.injEq, exists_eq_left']
    exact ⟨happens.final_of_enters_done, happens.cause_of_leaves_done, happens.faultEntry_of_enters_fault,
      happens.clears_of_leaves_fault⟩

/-! ### Responses -/

/-- The guard adds no response of its own (R186, R188). -/
theorem guarded_response_zero (legal : List Phase) (a : Arch) {out : Arch × Word} (silent : out.2 = 0) :
    (effect.guarded legal a out).2 = 0 := by
  unfold effect.guarded
  split_ifs
  exacts [rfl, silent, rfl]

/-- The response of a read-out depends on PHASE, and on what is read in DONE only (R36). -/
theorem guarded_response_congr {a b : Arch} {out out' : Arch × Word} (phase : a.phase = b.phase)
    (read : a.phase = .done → out.2 = out'.2) :
    (effect.guarded [.done] a out).2 = (effect.guarded [.done] b out').2 := by
  unfold effect.guarded
  rw [← phase]
  split_ifs with ignored inside
  exacts [rfl, read (List.mem_singleton.mp inside), rfl]

theorem status_congr {a b : Arch} (phase : a.phase = b.phase) (err : a.errcode = b.errcode) :
    status a = status b := by
  simp only [status, phase, err]

theorem wordEffect_response_congr {a b : Arch} (phase : a.phase = b.phase) (err : a.errcode = b.errcode)
    (digest : a.phase = .done → a.h = b.h) (cw : Word) : (wordEffect cw a).2 = (wordEffect cw b).2 := by
  unfold wordEffect
  cases decode cw with
  | none => dsimp only; rw [phase]; split_ifs <;> rfl
  | some i =>
    cases i with
    | nop | clr => rfl
    | rdst => exact status_congr phase err
    | hstart | kstart | kend | final =>
      exact (guarded_response_zero _ a rfl).trans (guarded_response_zero _ b rfl).symm
    | push =>
      exact (guarded_response_zero _ a (by split_ifs <;> rfl)).trans
        (guarded_response_zero _ b (by split_ifs <;> rfl)).symm
    | rdw i | rdb i => exact guarded_response_congr phase fun done => by rw [digest done]

/-- Settles O37: a reset answers nothing, and the answer to a word is that of `wordEffect`. -/
theorem responsesConfined : Obligations.ResponsesConfined := by
  intro s u e rs ru waits_s waits_u phase err digest
  cases e with
  | reset => exact ⟨_, _, [], step_cons s _ rs waits_s, step_cons u _ ru waits_u, by simp, by simp⟩
  | command cw =>
    refine ⟨_, _, [(wordEffect cw s.arch).2], step_cons s _ rs waits_s, step_cons u _ ru waits_u, rfl, ?_⟩
    rw [wordEffect_response_congr phase err digest]
    rfl

/-! ### Reset values and the digest view -/

/-- Settles O1: each clause is the reset value of one field, and CLR's state is that of reset
(`clearedArch_eq_reset`). -/
theorem resetValues : Obligations.ResetValues :=
  ⟨fun i => zeroChain_getElem i i.isLt, fun j => zeroBlock_getElem j j.isLt, fun j => zeroBlock_getElem j j.isLt,
    rfl, rfl, rfl, rfl, rfl, rfl, fun s => ⟨_, exec_eq_effect s .clr, rfl⟩⟩

/-- A byte of a word as a digit of the number (R29). -/
theorem byteOfWord_toNat (w : Word) (i : Nat) :
    (byteOfWord w i).toNat = w.toNat / 2 ^ (24 - 8 * i) % 256 := by
  rw [byteOfWord, BitVec.extractLsb'_toNat, Nat.shiftRight_eq_div_pow]

/-- Settles O46. -/
theorem digestByteOrder : Obligations.DigestByteOrder := by
  intro h i
  exact ⟨by simp [digestBytes], byteOfWord_toNat _ _⟩

end Sys2Proof.Machine

/-! The family of statements on order and placement: events in issue order, the two read-out views, the length field
(R50 to R59). -/

namespace Sys2Proof.Machine

/-! ### Issue order -/

/-- Settles O6: the run over `first` ends in `afterEvents first s`, whatever waits behind (`run_sending_append`), and
the events behind are taken from there (`afterEvents_append`). -/
theorem runInIssueOrder : Obligations.RunInIssueOrder := by
  intro s first
  refine ⟨(afterEvents first s).sending [], runInbox_sending first s, rfl, fun later => ⟨?_, ?_⟩⟩
  · exact run_sending_append first later s
  · rw [sending_sending, runInbox_sending, runInbox_sending, afterEvents_append]

/-! ### The two read-out views -/

/-- In DONE a command that is legal there has the effect it names (R187). -/
theorem guarded_done {a : Arch} (done : a.phase = .done) (out : Arch × Word) :
    effect.guarded [.done] a out = out := by
  rw [effect.guarded, if_neg (by simp [done]), if_pos (by simp [done])]

/-- RDW in DONE answers the four bytes from `4*idx3` and changes nothing else (R160). -/
theorem exec_rdw_done {s : State} (done : s.arch.phase = .done) (i : BitVec 3) :
    exec (.rdw i) s = .next { s with outbox := s.outbox ++ [memRead4 s.arch.h i] } := by
  rw [exec_eq_effect, effect, guarded_done done]

/-- RDB in DONE answers the byte at `idx5` and changes nothing else (R161). -/
theorem exec_rdb_done {s : State} (done : s.arch.phase = .done) (i : BitVec 5) :
    exec (.rdb i) s = .next { s with outbox := s.outbox ++ [(memRead1 s.arch.h i.toFin).setWidth 32] } := by
  rw [exec_eq_effect, effect, guarded_done done]

/-- The byte address `4*idx3 + j` written as an operand of RDB (R56). -/
theorem toFin_ofNat_wordAddr (i : BitVec 3) (j : Fin 4) :
    (BitVec.ofNat 5 (4 * i.toNat + j.val)).toFin = wordAddr i j := by
  have inRange : 4 * i.toNat + j.val < 32 := (wordAddr i j).isLt
  exact Fin.ext (Nat.mod_eq_of_lt inRange)

/-- RDB at `4*idx3 + j` in DONE answers byte `j` of the word `idx3` (R55). -/
theorem exec_rdb_wordAddr {s : State} (done : s.arch.phase = .done) (i : BitVec 3) (j : Fin 4) :
    exec (.rdb (BitVec.ofNat 5 (4 * i.toNat + j.val))) s =
      .next { s with outbox := s.outbox ++ [(memRead1 s.arch.h (wordAddr i j)).setWidth 32] } := by
  rw [exec_rdb_done done, toFin_ofNat_wordAddr]

/-- Settles O24: RDW answers the four bytes of `memRead4`, most significant first, and RDB each of them. -/
theorem readoutViewsAgree : Obligations.ReadoutViewsAgree := fun _ i done =>
  ⟨_, _, _, _, exec_rdw_done done i, exec_rdb_wordAddr done i 0, exec_rdb_wordAddr done i 1,
    exec_rdb_wordAddr done i 2, exec_rdb_wordAddr done i 3⟩

/-! ### The length field -/

theorem putLength_getElem_of_lt (buf : Block) (v : BitVec 64) {j : Nat} (before : j < 56) :
    (putLength buf v)[j] = buf[j] := by
  rw [putLength, Vector.getElem_ofFn, if_pos before]

theorem putLength_getElem_of_le (buf : Block) (v : BitVec 64) {j : Nat} (lt : j < 64) (past : 56 ≤ j) :
    (putLength buf v)[j] = lenByte v (j - 56) := by
  rw [putLength, Vector.getElem_ofFn, if_neg (Nat.not_lt.mpr past)]

/-- Four neighbouring bytes of a number, most significant first, are 32 of its bits (R51). -/
theorem wordOfBytes_extractLsb' {n : Nat} (x : BitVec n) (start : Nat) :
    wordOfBytes (x.extractLsb' (start + 24) 8) (x.extractLsb' (start + 16) 8) (x.extractLsb' (start + 8) 8)
      (x.extractLsb' start 8) = x.extractLsb' start 32 := by
  have join (place len : Nat) :
      x.extractLsb' (place + 8) len ++ x.extractLsb' place 8 = x.extractLsb' place (len + 8) :=
    BitVec.extractLsb'_append_extractLsb'_eq_extractLsb' rfl
  rw [wordOfBytes, join (start + 16), join (start + 8), join start]

/-- Words 14 and 15 of the block with the length placed are the high and the low half of the length (R51, R52). -/
theorem blockWord_putLength (buf : Block) (v : BitVec 64) (t : Fin 16) (last : 14 ≤ t.val) :
    blockWord (putLength buf v) t = v.extractLsb' (32 * (15 - t.val)) 32 := by
  have byte (m : Nat) (inWord : m < 4) :
      (putLength buf v)[4 * t.val + m] = v.extractLsb' (32 * (15 - t.val) + (24 - 8 * m)) 8 := by
    have place : 56 - 8 * (4 * t.val + m - 56) = 32 * (15 - t.val) + (24 - 8 * m) := by omega
    rw [putLength_getElem_of_le buf v _ (by omega), lenByte, place]
  have byte0 : (putLength buf v)[4 * t.val] = v.extractLsb' (32 * (15 - t.val) + 24) 8 := byte 0 (by decide)
  rw [blockWord, byte0, byte 1 (by decide), byte 2 (by decide), byte 3 (by decide)]
  exact wordOfBytes_extractLsb' v (32 * (15 - t.val))

/-- Settles O47: words 14 and 15 are the two halves of the number (`blockWord_putLength`), and these put together are
the number. -/
theorem lengthFieldPlaced : Obligations.LengthFieldPlaced := by
  intro buf v
  refine ⟨?_, fun j before => putLength_getElem_of_lt buf v before⟩
  calc blockWord (putLength buf v) 14 ++ blockWord (putLength buf v) 15
      = v.extractLsb' 32 32 ++ v.extractLsb' 0 32 := by
        rw [blockWord_putLength buf v 14 (by decide), blockWord_putLength buf v 15 (by decide)]
        rfl
    _ = v.extractLsb' 0 64 := BitVec.extractLsb'_append_extractLsb'_eq_extractLsb' rfl
    _ = v := BitVec.extractLsb'_eq_self

end Sys2Proof.Machine

/-! The encoding family, words: decoding against encoding, and the opcode map as masks (R70 to R75). -/

namespace Sys2Proof

/-! ### The fields of an encoded command -/

/-- The opcode field of a word put together from opcode, must-be-zero field and operand (R71). -/
theorem extractLsb'_opcode {z k : Nat} (op : BitVec 8) (x : BitVec k) :
    (op ++ (0 : BitVec z) ++ x).extractLsb' (z + k) 8 = op := by
  rw [BitVec.extractLsb'_append_eq_of_le (Nat.le_add_left k z), Nat.add_sub_cancel,
    BitVec.extractLsb'_append_eq_left]

/-- Its must-be-zero field (R71). -/
theorem extractLsb'_mustBeZero {z k : Nat} (op : BitVec 8) (x : BitVec k) :
    (op ++ (0 : BitVec z) ++ x).extractLsb' k z = 0 := by
  rw [BitVec.extractLsb'_append_eq_of_le (Nat.le_refl k), Nat.sub_self, BitVec.extractLsb'_append_eq_right]

/-- Its value: the opcode above the operand, which alone fills the low bits (R71, R72). -/
theorem toNat_opcode_operand {z k : Nat} (op : BitVec 8) (x : BitVec k) :
    (op ++ (0 : BitVec z) ++ x).toNat = op.toNat * 2 ^ (z + k) + x.toNat := by
  rw [BitVec.toNat_append, ← Nat.shiftLeft_add_eq_or_of_lt x.isLt, BitVec.toNat_append]
  simp [Nat.shiftLeft_eq, Nat.pow_add, Nat.mul_assoc]

theorem encode_push (b : Byte) : encode (.push b) = 0x20000000 + b.setWidth 32 := by
  have value : (encode (.push b)).toNat = 0x20000000 + b.toNat := toNat_opcode_operand 0x20 b
  bv_omega

theorem encode_rdw (i : BitVec 3) : encode (.rdw i) = 0x30000000 + i.setWidth 32 := by
  have value : (encode (.rdw i)).toNat = 0x30000000 + i.toNat := toNat_opcode_operand 0x30 i
  bv_omega

theorem encode_rdb (i : BitVec 5) : encode (.rdb i) = 0x31000000 + i.setWidth 32 := by
  have value : (encode (.rdb i)).toNat = 0x31000000 + i.toNat := toNat_opcode_operand 0x31 i
  bv_omega

/-! ### Decoding and encoding -/

theorem decode_encode_push (b : Byte) : decode (encode (.push b)) = some (.push b) := by
  have opcode : opField (encode (.push b)) = 0x20 := extractLsb'_opcode 0x20 b
  have zero : (encode (.push b)).extractLsb' 8 16 = 0 := extractLsb'_mustBeZero 0x20 b
  have operand : (encode (.push b)).extractLsb' 0 8 = b := BitVec.extractLsb'_append_eq_right
  simp [decode, decodeB, opcode, zero, operand]

theorem decode_encode_rdw (i : BitVec 3) : decode (encode (.rdw i)) = some (.rdw i) := by
  have opcode : opField (encode (.rdw i)) = 0x30 := extractLsb'_opcode 0x30 i
  have zero : (encode (.rdw i)).extractLsb' 3 21 = 0 := extractLsb'_mustBeZero 0x30 i
  have operand : (encode (.rdw i)).extractLsb' 0 3 = i := BitVec.extractLsb'_append_eq_right
  simp [decode, decodeXW, opcode, zero, operand]

theorem decode_encode_rdb (i : BitVec 5) : decode (encode (.rdb i)) = some (.rdb i) := by
  have opcode : opField (encode (.rdb i)) = 0x31 := extractLsb'_opcode 0x31 i
  have zero : (encode (.rdb i)).extractLsb' 5 19 = 0 := extractLsb'_mustBeZero 0x31 i
  have operand : (encode (.rdb i)).extractLsb' 0 5 = i := BitVec.extractLsb'_append_eq_right
  simp [decode, decodeXB, opcode, zero, operand]

@[simp] theorem decode_encode (i : Instr) : decode (encode i) = some i := by
  cases i with
  | nop | clr | rdst | hstart | kstart | kend | final => rfl
  | push b => exact decode_encode_push b
  | rdw i => exact decode_encode_rdw i
  | rdb i => exact decode_encode_rdb i

/-- A decoded word is its command's encoding: the decoder checks the opcode and that the rest is zero, and the fields
of a word determine it (`word_fields_B` and its like). -/
theorem encode_of_decode {cw : Word} {i : Instr} (read : decode cw = some i) : encode i = cw := by
  have formatZ {op : BitVec 8} {j : Instr} (encodes : encode j = encodeZ op) (opcode : opField cw = op)
      (read : decodeZ cw j = some i) : encode i = cw := by
    obtain ⟨zero, rfl⟩ := decodeZ_eq_some read
    rw [encodes, eq_encodeZ opcode zero]
  obtain ⟨op, z⟩ | ⟨op, z⟩ | ⟨op, z⟩ | ⟨op, z⟩ | ⟨op, z⟩ | ⟨op, z⟩ | ⟨op, z⟩ | ⟨op, b⟩ | ⟨op, xw⟩ | ⟨op, xb⟩ :=
    decode_inversion read
  iterate 7 exact formatZ rfl op z
  · obtain ⟨zero, rfl⟩ := decodeB_eq_some b
    rw [encode, ← op, ← zero]
    exact word_fields_B cw
  · obtain ⟨zero, rfl⟩ := decodeXW_eq_some xw
    rw [encode, ← op, ← zero]
    exact word_fields_XW cw
  · obtain ⟨zero, rfl⟩ := decodeXB_eq_some xb
    rw [encode, ← op, ← zero]
    exact word_fields_XB cw

theorem decode_eq_some_iff {cw : Word} {i : Instr} : decode cw = some i ↔ encode i = cw :=
  ⟨encode_of_decode, fun encodes => encodes ▸ decode_encode i⟩

theorem encode_injective : Function.Injective encode := fun i j same =>
  Option.some_injective _ (by rw [← decode_encode i, same, decode_encode])

/-- Settles O8: `decode_encode` for every command, `encode_of_decode` for every legal word. -/
theorem decodeEncodeAgree : Obligations.DecodeEncodeAgree :=
  ⟨decode_encode, fun _ _ => encode_of_decode⟩

/-- Settles O10: a decoded word is the row's word plus the operand, so the operand is what the row's word leaves
modulo the field's size. -/
theorem operandFields : Obligations.OperandFields := by
  refine ⟨fun cw b read => ?_, fun cw i read => ?_, fun cw i read => ?_, fun b => ?_, fun i => ?_, fun i => ?_⟩
  · rw [← encode_of_decode read, encode_push]; bv_omega
  · rw [← encode_of_decode read, encode_rdw]; bv_omega
  · rw [← encode_of_decode read, encode_rdb]; bv_omega
  · rw [← encode_push, decode_encode]
  · rw [← encode_rdw, decode_encode]
  · rw [← encode_rdb, decode_encode]

/-- Settles O7. -/
theorem specWordsDecode : Obligations.SpecWordsDecode := by
  unfold Obligations.SpecWordsDecode
  decide

/-! ### The opcode map -/

/-- A word is its bits under a high mask plus its low `k` bits. -/
theorem and_highMask_add_low {w : Nat} (x : BitVec w) (k : Nat) :
    (x &&& (BitVec.allOnes w <<< k)) + (x.setWidth k).setWidth w = x := by
  have apart : (x &&& (BitVec.allOnes w <<< k)) &&& (x.setWidth k).setWidth w = 0 := by
    ext i lt
    by_cases low : i < k <;> simp [low]
  rw [BitVec.add_eq_or_of_and_eq_zero _ _ apart]
  ext i lt
  by_cases low : i < k <;> simp [low, BitVec.getLsbD_eq_getElem lt]

/-- Every word under a row's mask and match is the encoding of a command of the row (R73). -/
theorem exists_encode_of_masked {r : OpcodeRow} (row : r ∈ opcodeTable) {cw : Word}
    (masked : cw &&& r.mask = r.pattern) : ∃ i : Instr, i.mnemonic = r.mnemonic ∧ encode i = cw := by
  have whole (full : r.mask = BitVec.allOnes 32) : r.pattern = cw := by
    rw [← masked, full, BitVec.and_allOnes]
  have operand (k : Nat) (high : r.mask = BitVec.allOnes 32 <<< k) :
      r.pattern + (cw.setWidth k).setWidth 32 = cw := by
    rw [← masked, high, and_highMask_add_low]
  simp only [opcodeTable, List.mem_cons, List.not_mem_nil, or_false] at row
  obtain rfl | rfl | rfl | rfl | rfl | rfl | rfl | rfl | rfl | rfl := row
  · exact ⟨.nop, rfl, whole rfl⟩
  · exact ⟨.clr, rfl, whole rfl⟩
  · exact ⟨.rdst, rfl, whole rfl⟩
  · exact ⟨.hstart, rfl, whole rfl⟩
  · exact ⟨.kstart, rfl, whole rfl⟩
  · exact ⟨.kend, rfl, whole rfl⟩
  · exact ⟨.final, rfl, whole rfl⟩
  · exact ⟨.push (cw.setWidth 8), rfl, (encode_push _).trans (operand 8 rfl)⟩
  · exact ⟨.rdw (cw.setWidth 3), rfl, (encode_rdw _).trans (operand 3 rfl)⟩
  · exact ⟨.rdb (cw.setWidth 5), rfl, (encode_rdb _).trans (operand 5 rfl)⟩

/-- A command's word matches its own row and no other: the laws of `EncodesOwnRow`, for every command. -/
theorem encodesOwnRow (i : Instr) : Laws.EncodesOwnRow.Statement i := by
  cases i with
  | nop => exact Laws.EncodesOwnRow.nop
  | clr => exact Laws.EncodesOwnRow.clr
  | rdst => exact Laws.EncodesOwnRow.rdst
  | hstart => exact Laws.EncodesOwnRow.hstart
  | kstart => exact Laws.EncodesOwnRow.kstart
  | kend => exact Laws.EncodesOwnRow.kend
  | final => exact Laws.EncodesOwnRow.final
  | push b => exact Laws.EncodesOwnRow.push b
  | rdw i => exact Laws.EncodesOwnRow.rdw i
  | rdb i => exact Laws.EncodesOwnRow.rdb i

/-- The words under a row's mask and match are the encodings of the commands with its mnemonic (R73). -/
theorem masked_iff {r : OpcodeRow} (row : r ∈ opcodeTable) (cw : Word) :
    cw &&& r.mask = r.pattern ↔ ∃ i : Instr, i.mnemonic = r.mnemonic ∧ encode i = cw := by
  refine ⟨exists_encode_of_masked row, ?_⟩
  rintro ⟨i, named, rfl⟩
  have own : r.accepts (encode i) = true := by rw [encodesOwnRow i r row, decide_eq_true named.symm]
  exact eq_of_beq own

/-- The mnemonics of the table are distinct, and a word decodes to one command only (R73). -/
theorem opcodeTable_disjoint {r q : OpcodeRow} (row : r ∈ opcodeTable) (other : q ∈ opcodeTable)
    (differ : r.mnemonic ≠ q.mnemonic) (cw : Word) :
    ¬ (cw &&& r.mask = r.pattern ∧ cw &&& q.mask = q.pattern) := by
  rw [masked_iff row, masked_iff other]
  rintro ⟨⟨i, inRow, rfl⟩, j, inOther, same⟩
  exact differ (by rw [← inRow, ← inOther, encode_injective same])

/-! ### Counting the legal words -/

/-- Every bit vector of a width, in the order of its values. -/
def allOfWidth (n : Nat) : List (BitVec n) := (List.finRange (2 ^ n)).map BitVec.ofFin

theorem mem_allOfWidth {n : Nat} (x : BitVec n) : x ∈ allOfWidth n :=
  List.mem_map.mpr ⟨x.toFin, List.mem_finRange _, rfl⟩

theorem nodup_allOfWidth (n : Nat) : (allOfWidth n).Nodup :=
  (List.nodup_finRange _).map fun _ _ => congrArg BitVec.toFin

@[simp] theorem length_allOfWidth (n : Nat) : (allOfWidth n).length = 2 ^ n := by
  simp [allOfWidth]

/-- Every command with every operand, in the order of the table of R73. -/
def allInstrs : List Instr :=
  [.nop, .clr, .rdst, .hstart, .kstart, .kend, .final] ++ (allOfWidth 8).map .push ++ (allOfWidth 3).map .rdw ++
    (allOfWidth 5).map .rdb

theorem mem_allInstrs (i : Instr) : i ∈ allInstrs := by
  cases i <;> simp [allInstrs, mem_allOfWidth]

theorem nodup_allInstrs : allInstrs.Nodup := by
  simp [allInstrs, List.nodup_append, List.nodup_map_iff_inj_on, nodup_allOfWidth, or_imp, forall_and]

theorem length_allInstrs : allInstrs.length = 303 := by
  simp [allInstrs]

/-- The commands of a row. -/
def OpcodeRow.instrs (r : OpcodeRow) : List Instr := allInstrs.filter (·.mnemonic = r.mnemonic)

theorem OpcodeRow.mem_instrs {r : OpcodeRow} {i : Instr} : i ∈ r.instrs ↔ i.mnemonic = r.mnemonic := by
  simp [OpcodeRow.instrs, mem_allInstrs]

theorem length_instrs {r : OpcodeRow} (row : r ∈ opcodeTable) : r.instrs.length = r.words := by
  simp only [opcodeTable, List.mem_cons, List.not_mem_nil, or_false] at row
  obtain rfl | rfl | rfl | rfl | rfl | rfl | rfl | rfl | rfl | rfl := row <;>
    simp [OpcodeRow.instrs, allInstrs, Instr.mnemonic, List.filter_map, Function.comp_def]

/-- Settles O9: the words of a row are the encodings of its commands (`masked_iff`), the legal words those of all
commands (`decode_eq_some_iff`), and `encode` is injective, so there are as many words as commands. -/
theorem opcodeMap : Obligations.OpcodeMap := by
  have words_nodup {is : List Instr} (once : is.Nodup) : (is.map encode).Nodup := once.map encode_injective
  refine ⟨fun r row cw => ?_, ?_, fun r row => ?_, ?_⟩
  · simp only [masked_iff row, decode_eq_some_iff, and_comm]
  · have distinct : opcodeTable.Pairwise fun r q => r.mnemonic ≠ q.mnemonic := by decide
    exact distinct.imp_of_mem opcodeTable_disjoint
  · refine ⟨r.instrs.map encode, words_nodup (nodup_allInstrs.filter _), ?_, fun cw => ?_⟩
    · rw [List.length_map, length_instrs row]
    · simp [masked_iff row, OpcodeRow.mem_instrs]
  · refine ⟨allInstrs.map encode, words_nodup nodup_allInstrs, ?_, fun cw => ?_⟩
    · rw [List.length_map, length_allInstrs]
    · simp [Option.isSome_iff_exists, decode_eq_some_iff, mem_allInstrs]

end Sys2Proof

/-! The encoding family, text: how the assembler reads a line, and the pseudo-instructions (R77, R78). -/

namespace Sys2Proof.Machine

/-! ### The tokens of a line -/

/-- The character stands for itself inside a word: it separates nothing and opens no quote (R77). -/
def plain (c : Char) : Bool := c ∉ [';', ' ', '\t', ',', '"', '\'']

/-- A word of a line: a mnemonic or a number. -/
def isWord (w : List Char) : Bool := w ≠ [] && w.all plain

theorem lex_gap_plain {c : Char} (stands : plain c) (cs : List Char) :
    lex .gap (c :: cs) = lex (.inWord [c]) cs := by
  simp_all [plain, lex]

theorem lex_inWord_plain {c : Char} (stands : plain c) (acc cs : List Char) :
    lex (.inWord acc) (c :: cs) = lex (.inWord (c :: acc)) cs := by
  simp_all [plain, lex]

theorem lex_inWord_append {w : List Char} (stand : w.all plain) (acc cs : List Char) :
    lex (.inWord acc) (w ++ cs) = lex (.inWord (w.reverse ++ acc)) cs := by
  induction w generalizing acc with
  | nil => rfl
  | cons c w ih =>
    rw [List.all_cons, Bool.and_eq_true] at stand
    obtain ⟨first, rest⟩ := stand
    rw [List.cons_append, lex_inWord_plain first, ih rest]
    simp

/-- The word that stands at the beginning is read whole. -/
theorem lex_gap_word {w : List Char} (word : isWord w) (cs : List Char) :
    lex .gap (w ++ cs) = lex (.inWord w.reverse) cs := by
  cases w with
  | nil => simp [isWord] at word
  | cons c w =>
    obtain ⟨first, rest⟩ : plain c = true ∧ w.all plain = true := by simpa [isWord] using word
    rw [List.cons_append, lex_gap_plain first, lex_inWord_append rest, List.reverse_cons]

/-- A word and a blank become one token. -/
theorem lex_word_blank {w : List Char} (word : isWord w) (cs : List Char) :
    lex .gap (w ++ ' ' :: cs) = (lex .gap cs).map (.word w :: ·) := by
  rw [lex_gap_word word]
  simp [lex, LexMode.flush]

/-- A word that ends the line becomes one token. -/
theorem lex_word_end {w : List Char} (word : isWord w) : lex .gap w = some [.word w] := by
  have ends := lex_gap_word word []
  simpa [lex, LexMode.flush] using ends

/-- A byte sequence in double quotes becomes one token (R9). -/
theorem lex_gap_hexBytes (bs : List Byte) (cs : List Char) :
    lex .gap ('"' :: (hexBytes bs ++ '"' :: cs)) = (lex .gap cs).map (.hexString (hexBytes bs) :: ·) := by
  have opens (rest : List Char) : lex .gap ('"' :: rest) = lex (.inHex []) rest := by simp [lex, LexMode.flush]
  rw [opens, lex_hexString _ _ _ (hexBytes_no_quote bs)]
  rfl

/-- A text in single quotes becomes one token (R78). -/
theorem lex_gap_text {text : List Char} (unquoted : '\'' ∉ text) (cs : List Char) :
    lex .gap ('\'' :: (text ++ '\'' :: cs)) = (lex .gap cs).map (.text text :: ·) := by
  have opens (rest : List Char) : lex .gap ('\'' :: rest) = lex (.inText []) rest := by simp [lex, LexMode.flush]
  rw [opens, lex_text _ _ _ unquoted]
  rfl

/-! ### The forms of a line -/

/-- A mnemonic alone. -/
theorem assembleLine_bare {m : List Char} (word : isWord m) : assembleLine m = assembleBare m := by
  rw [assembleLine, lex_word_end word]
  rfl

/-- A mnemonic and a number. -/
theorem assembleLine_number {m n : List Char} (word : isWord m) (number : isWord n) :
    assembleLine (m ++ ' ' :: n) = (parseNumber n).bind (assembleNumber m) := by
  rw [assembleLine, lex_word_blank word, lex_word_end number]
  rfl

/-- A mnemonic and a byte sequence as R9 writes it. -/
theorem assembleLine_hexString {m : List Char} (word : isWord m) (bs : List Byte) :
    assembleLine (m ++ ' ' :: '"' :: (hexBytes bs ++ ['"'])) =
      assembleTokens [.word m, .hexString (hexBytes bs)] := by
  rw [assembleLine, lex_word_blank word, lex_gap_hexBytes]
  rfl

/-- A mnemonic and two byte sequences. -/
theorem assembleLine_hexStrings {m : List Char} (word : isWord m) (bs cs : List Byte) :
    assembleLine (m ++ ' ' :: '"' :: (hexBytes bs ++ '"' :: ',' :: ' ' :: '"' :: (hexBytes cs ++ ['"']))) =
      assembleTokens [.word m, .hexString (hexBytes bs), .comma, .hexString (hexBytes cs)] := by
  have comma (rest : List Char) : lex .gap (',' :: ' ' :: rest) = (lex .gap rest).map (.comma :: ·) := by
    simp [lex, LexMode.flush]
  rw [assembleLine, lex_word_blank word, lex_gap_hexBytes, comma, lex_gap_hexBytes]
  rfl

/-- PUSHS and a text without a quote. -/
theorem assembleLine_pushs {text : List Char} (unquoted : '\'' ∉ text) :
    assembleLine (['P', 'U', 'S', 'H', 'S'] ++ ' ' :: '\'' :: (text ++ ['\''])) = expandPushs text := by
  rw [assembleLine, lex_word_blank (by decide), lex_gap_text unquoted]
  rfl

/-! ### Assembling a command's text -/

theorem plain_hexDigit (n : BitVec 4) : plain (hexDigit n) := by revert n; decide

/-- A byte written behind 0x is read as its value (R9, R77). -/
theorem parseNumber_hexByte (b : Byte) : parseNumber (['0', 'x'] ++ hexByte b) = some b.toNat := by
  have value : 16 * (b.toNat >>> 4 % 16) + b.toNat % 16 = b.toNat := by
    have lt := b.isLt
    rw [Nat.shiftRight_eq_div_pow]
    omega
  simp [parseNumber, hexByte, parseDigits, hexValue_hexDigit, value]

/-- PUSH and a byte in hexadecimal (R77). -/
theorem assembleLine_push (b : Byte) : assembleLine (asmText (.push b)) = some [.push b] := by
  have lead : plain '0' = true ∧ plain 'x' = true := by decide
  have number : isWord (['0', 'x'] ++ hexByte b) := by simp [isWord, hexByte, plain_hexDigit, lead]
  calc assembleLine (['P', 'U', 'S', 'H'] ++ ' ' :: (['0', 'x'] ++ hexByte b))
      = (parseNumber (['0', 'x'] ++ hexByte b)).bind (assembleNumber ['P', 'U', 'S', 'H']) :=
        assembleLine_number (by decide) number
    _ = assembleNumber ['P', 'U', 'S', 'H'] b.toNat := by rw [parseNumber_hexByte, Option.bind_some]
    _ = some [.push b] := by
        have inRange : b.toNat ≤ 255 := Nat.le_of_lt_succ b.isLt
        simp [assembleNumber, inRange]

/-- Settles O12: PUSH by `assembleLine_push`, and the 47 other texts are read one by one. -/
theorem assembleText : Obligations.AssembleText := by
  intro i
  cases i with
  | nop | clr | rdst | hstart | kstart | kend | final => exact assembleLine_bare (by decide)
  | push b => exact assembleLine_push b
  | rdw i => revert i; decide
  | rdb i => revert i; decide

/-! ### Pseudo-instructions -/

theorem pushsAllows_eq_false_iff (c : Char) :
    pushsAllows c = false ↔ c.toNat < 0x20 ∨ 0x7E < c.toNat ∨ c = '\'' := by
  simp only [pushsAllows, Bool.and_eq_false_iff, decide_eq_false_iff_not, not_le, not_not, or_assoc]

/-- The expansion of a text is refused exactly for a character that R78 does not allow. -/
theorem expandPushs_eq_none_iff (text : List Char) :
    expandPushs text = none ↔ ∃ c ∈ text, c.toNat < 0x20 ∨ 0x7E < c.toNat ∨ c = '\'' := by
  simp [expandPushs, pushsAllows_eq_false_iff]

theorem expandPushs_of_allowed {text : List Char}
    (allowed : ∀ c ∈ text, 0x20 ≤ c.toNat ∧ c.toNat ≤ 0x7E ∧ c ≠ '\'') :
    expandPushs text = some (text.map fun c => .push (BitVec.ofNat 8 c.toNat)) := by
  have all : text.all pushsAllows = true := by simpa [pushsAllows, and_assoc] using allowed
  rw [expandPushs, if_pos all]

theorem expandHmac_eq (K M : List Byte) :
    expandHmac K M = .kstart :: (K.map .push ++ .kend :: (M.map .push ++ [.final])) := by
  simp [expandHmac, expandPushx]

theorem expandRddg_length : expandRddg.length = 32 := by simp [expandRddg]

/-- The i-th command of RDDG reads the i-th digest byte (R78). -/
theorem expandRddg_getElem? (i : Fin 32) : expandRddg[i.val]? = some (.rdb (BitVec.ofNat 5 i.val)) := by
  simp [expandRddg]

theorem assembleLine_pushx (bs : List Byte) :
    assembleLine (['P', 'U', 'S', 'H', 'X', ' ', '"'] ++ hexBytes bs ++ ['"']) = some (bs.map .push) := calc
  _ = assembleTokens [.word ['P', 'U', 'S', 'H', 'X'], .hexString (hexBytes bs)] :=
    assembleLine_hexString (m := ['P', 'U', 'S', 'H', 'X']) (by decide) bs
  _ = (parseHexBytes (hexBytes bs)).map expandPushx := rfl
  _ = some (bs.map .push) := by rw [parseHexBytes_hexBytes]; rfl

theorem assembleLine_hash (M : List Byte) :
    assembleLine (['H', 'A', 'S', 'H', ' ', '"'] ++ hexBytes M ++ ['"']) = some (expandHash M) := calc
  _ = assembleTokens [.word ['H', 'A', 'S', 'H'], .hexString (hexBytes M)] :=
    assembleLine_hexString (m := ['H', 'A', 'S', 'H']) (by decide) M
  _ = (parseHexBytes (hexBytes M)).map expandHash := rfl
  _ = some (expandHash M) := by rw [parseHexBytes_hexBytes]; rfl

theorem assembleLine_hmac (K M : List Byte) :
    assembleLine (['H', 'M', 'A', 'C', ' ', '"'] ++ hexBytes K ++ ['"', ',', ' ', '"'] ++ hexBytes M ++ ['"']) =
      some (expandHmac K M) := calc
  _ = assembleLine (['H', 'M', 'A', 'C'] ++
        ' ' :: '"' :: (hexBytes K ++ '"' :: ',' :: ' ' :: '"' :: (hexBytes M ++ ['"']))) := by
    simp only [List.append_assoc, List.cons_append, List.nil_append]
  _ = assembleTokens [.word ['H', 'M', 'A', 'C'], .hexString (hexBytes K), .comma, .hexString (hexBytes M)] :=
    assembleLine_hexStrings (by decide) K M
  _ = some (expandHmac K M) := by
    rw [assembleTokens, if_pos rfl, parseHexBytes_hexBytes, parseHexBytes_hexBytes]
    rfl

/-- Settles O13: each line is cut into its tokens by the laws of `lex`, and the strings are read back by
`parseHexBytes_hexBytes`; what remains is the expansions themselves. -/
theorem pseudoExpansions : Obligations.PseudoExpansions := by
  refine ⟨assembleLine_pushx, fun text allowed => ?pushs, fun text unquoted outside => ?refused,
    expandPushs_eq_none_iff, assembleLine_hash, fun K M => ?hmac, ?rddg, ?rddw,
    assembleLine_pushx [0x6B, 0x65, 0x79], assembleLine_pushx [], fun _ => rfl, expandHmac_eq, rfl,
    expandRddg_length, expandRddg_getElem?⟩
  case pushs =>
    have unquoted : '\'' ∉ text := fun mem => (allowed _ mem).2.2 rfl
    exact (assembleLine_pushs unquoted).trans (expandPushs_of_allowed allowed)
  case refused =>
    obtain ⟨c, mem, out⟩ := outside
    exact (assembleLine_pushs unquoted).trans
      ((expandPushs_eq_none_iff text).mpr ⟨c, mem, out.imp_right .inl⟩)
  case hmac => rw [assembleLine_hmac, expandHmac_eq]
  case rddg => exact ⟨expandRddg, assembleLine_bare (by decide), expandRddg_length, expandRddg_getElem?⟩
  case rddw => exact assembleLine_bare (by decide)

end Sys2Proof.Machine

/-! The family of statements on the SHA-256 core: the word operations, the constants, the compression, the procedures
and the HASH operation (R90 to R108, R141 to R145). -/

namespace Sys2Proof.Machine

/-! ### Word operations -/

/-- The model's rotation is the library's. -/
theorem rotr_eq_rotateRight {n : Nat} (lt : n < 32) (x : Word) : rotr n x = x.rotateRight n := by
  rw [rotr, BitVec.rotateRight_def, Nat.mod_eq_of_lt lt]

/-- A rotation as arithmetic: the low `n` bits come back at the top (R90(b)). -/
theorem toNat_rotr {n : Nat} (lt : n < 32) (x : Word) :
    (rotr n x).toNat = x.toNat / 2 ^ n + x.toNat % 2 ^ n * 2 ^ (32 - n) := by
  have split : 2 ^ 32 = 2 ^ n * 2 ^ (32 - n) := by rw [← Nat.pow_add, Nat.add_sub_cancel' lt.le]
  have low : x.toNat / 2 ^ n < 2 ^ (32 - n) := Nat.div_lt_of_lt_mul (split ▸ x.isLt)
  have high : x.toNat <<< (32 - n) % 2 ^ 32 = (x.toNat % 2 ^ n) <<< (32 - n) := by
    rw [Nat.shiftLeft_eq, Nat.shiftLeft_eq, split, Nat.mul_mod_mul_right]
  rw [rotr, BitVec.toNat_or, BitVec.toNat_ushiftRight, BitVec.toNat_shiftLeft, Nat.shiftRight_eq_div_pow, high,
    Nat.or_comm, ← Nat.shiftLeft_add_eq_or_of_lt low, Nat.shiftLeft_eq, Nat.add_comm]

/-- Settles O40. -/
theorem wordArithmetic : Obligations.WordArithmetic := by
  refine ⟨BitVec.toNat_add, fun n x _ lt => toNat_rotr lt x, fun n x _ _ => ?_, fun x => ?_⟩
  · rw [shr, BitVec.toNat_ushiftRight, Nat.shiftRight_eq_div_pow]
  · rw [BitVec.toNat_not]

/-- Ch takes the bit of `y` where `x` has a 1, else that of `z` (R91). -/
theorem getLsbD_ch (x y z : Word) (i : Nat) :
    (ch x y z).getLsbD i = if x.getLsbD i then y.getLsbD i else z.getLsbD i := by
  rcases Nat.lt_or_ge i 32 with inside | outside
  · simp only [ch, BitVec.getLsbD_xor, BitVec.getLsbD_and, BitVec.getLsbD_not, inside]
    cases x.getLsbD i <;> simp
  · simp [BitVec.getLsbD_of_ge _ i outside]

/-- Maj is 1 where at least two of its operands are (R92). -/
theorem getLsbD_maj (x y z : Word) (i : Nat) :
    (maj x y z).getLsbD i = decide (2 ≤ (x.getLsbD i).toNat + (y.getLsbD i).toNat + (z.getLsbD i).toNat) := by
  simp only [maj, BitVec.getLsbD_xor, BitVec.getLsbD_and]
  generalize x.getLsbD i = p, y.getLsbD i = q, z.getLsbD i = r
  revert p q r
  decide

/-- Settles O41. -/
theorem chooseAndMajority : Obligations.ChooseAndMajority := fun x y z i =>
  ⟨getLsbD_ch x y z i, getLsbD_maj x y z i⟩

/-- Settles O42: each rotation is the library's (`rotr_eq_rotateRight`), and the examples are computed. -/
theorem sigmaFunctions : Obligations.SigmaFunctions := by
  refine ⟨fun x => ?_, fun x => ?_, fun x => ?_, fun x => ?_, by decide⟩
  · simp [bsig0, rotr_eq_rotateRight]
  · simp [bsig1, rotr_eq_rotateRight]
  · simp [ssig0, rotr_eq_rotateRight, shr]
  · simp [ssig1, rotr_eq_rotateRight, shr]

/-! ### Constants -/

/-- The primes from 2 to 311. -/
def primesTo311 : List Nat := (List.range 312).filter fun p => decide (Nat.Prime p)

/-- The first 32 bits of the fractional part of the `k`-th root of `p` (R97, R98). -/
def rootFraction (k p : Nat) : Word := BitVec.ofNat 32 (Nat.nthRoot k (p * 2 ^ (32 * k)))

/-- The bits of a root come from the whole number just below the root. -/
theorem exists_floor_rootFraction {k : Nat} (positive : k ≠ 0) (p : Nat) :
    ∃ q : Nat, q ^ k ≤ p * 2 ^ (32 * k) ∧ p * 2 ^ (32 * k) < (q + 1) ^ k ∧
      rootFraction k p = BitVec.ofNat 32 q :=
  ⟨_, Nat.pow_nthRoot_le (.inl positive), Nat.lt_pow_nthRoot_add_one positive _, rfl⟩

theorem roundConstants_length : roundConstants.length = 64 := rfl

theorem roundConstants_eq_cubeRoots : roundConstants = primesTo311.map (rootFraction 3) := by decide +kernel

theorem initialHash_eq_squareRoots : initialHash.toList = (primesTo311.take 8).map (rootFraction 2) := by
  decide +kernel

/-- Settles O43: both tables are the roots of the primes, computed, and each entry has its floor
(`exists_floor_rootFraction`). -/
theorem constantsFromPrimes : Obligations.ConstantsFromPrimes := by
  refine ⟨roundConstants_length, ?_, fun t p prime => ?_, fun i p prime => ?_⟩
  · have sizes := congrArg List.length roundConstants_eq_cubeRoots
    rw [List.length_map, roundConstants_length] at sizes
    exact sizes.symm
  · obtain ⟨q, low, high, bits⟩ := exists_floor_rootFraction (k := 3) (by decide) p
    have entry : primesTo311[t]? = some p := prime
    exact ⟨q, low, high, by rw [roundConstants_eq_cubeRoots, List.getElem?_map, entry, Option.map_some, bits]⟩
  · obtain ⟨q, low, high, bits⟩ := exists_floor_rootFraction (k := 2) (by decide) p
    have entry : primesTo311[i.val]? = some p := prime
    have word : initialHash.toList[i.val]? = some (rootFraction 2 p) := by
      rw [initialHash_eq_squareRoots, List.getElem?_map, List.getElem?_take_of_lt i.isLt, entry, Option.map_some]
    refine ⟨q, low, high, ?_⟩
    rw [← bits]
    simpa using word

/-! ### The message schedule -/

/-- A word as a number, its first byte the most significant (R51). -/
theorem toNat_wordOfBytes (b0 b1 b2 b3 : Byte) :
    (wordOfBytes b0 b1 b2 b3).toNat =
      b0.toNat * 2 ^ 24 + b1.toNat * 2 ^ 16 + b2.toNat * 2 ^ 8 + b3.toNat := by
  have append {n : Nat} (x : BitVec n) (b : Byte) : (x ++ b).toNat = x.toNat * 2 ^ 8 + b.toNat := by
    rw [BitVec.toNat_append, ← Nat.shiftLeft_add_eq_or_of_lt b.isLt, Nat.shiftLeft_eq]
  rw [wordOfBytes, append, append, append]
  omega

@[simp] theorem scheduleExtend_length (n : Nat) (W : List Word) : (scheduleExtend n W).length = W.length + n := by
  induction n generalizing W with
  | zero => rfl
  | succ n ih =>
    rw [scheduleExtend, ih, List.length_append, List.length_singleton]
    omega

/-- The words already there stay. -/
theorem scheduleExtend_getD_of_lt (n : Nat) {W : List Word} {t : Nat} (before : t < W.length) :
    (scheduleExtend n W).getD t 0 = W.getD t 0 := by
  induction n generalizing W with
  | zero => rfl
  | succ n ih =>
    rw [scheduleExtend, ih (by rw [List.length_append]; omega), List.getD_append _ _ _ _ before]

/-- Each new word obeys the recurrence of R99. -/
theorem scheduleExtend_getD_of_ge (n : Nat) {W : List Word} {t : Nat} (started : 16 ≤ W.length)
    (new : W.length ≤ t) (lt : t < W.length + n) :
    (scheduleExtend n W).getD t 0 =
      ssig1 ((scheduleExtend n W).getD (t - 2) 0) + (scheduleExtend n W).getD (t - 7) 0 +
      ssig0 ((scheduleExtend n W).getD (t - 15) 0) + (scheduleExtend n W).getD (t - 16) 0 := by
  induction n generalizing W with
  | zero => omega
  | succ n ih =>
    have grown : (W ++ [scheduleNext W]).length = W.length + 1 := by simp
    rcases Nat.eq_or_lt_of_le new with rfl | later
    · have old {k : Nat} (positive : 0 < k) :
          (scheduleExtend (n + 1) W).getD (W.length - k) 0 = W.getD (W.length - k) 0 :=
        scheduleExtend_getD_of_lt (n + 1) (by omega)
      have next : (scheduleExtend (n + 1) W).getD W.length 0 = scheduleNext W := by
        rw [scheduleExtend, scheduleExtend_getD_of_lt n (by omega), List.getD_append_right _ _ _ _ (Nat.le_refl _),
          Nat.sub_self]
        rfl
      rw [next, old (by decide), old (by decide), old (by decide), old (by decide), scheduleNext]
    · exact ih (by omega) (by omega) (by omega)

@[simp] theorem schedule_length (b : Block) : (schedule b).length = 64 := by simp [schedule]

/-- Settles O44: the first sixteen words stay (`scheduleExtend_getD_of_lt`), the others obey the recurrence
(`scheduleExtend_getD_of_ge`). -/
theorem scheduleRecurrence : Obligations.ScheduleRecurrence := by
  intro b
  have first : ((List.finRange 16).map (blockWord b)).length = 16 := by simp
  refine ⟨schedule_length b, fun t => ?_, fun t from16 below => ?_⟩
  · have word : (schedule b).getD t.val 0 = blockWord b t := by
      rw [schedule, scheduleExtend_getD_of_lt 48 (by rw [first]; exact t.isLt)]
      simp [List.getD_eq_getElem?_getD]
    rw [word, blockWord, toNat_wordOfBytes]
  · exact scheduleExtend_getD_of_ge 48 (by omega) (by omega) (by omega)

/-! ### The rounds -/

/-- v_t: the working variables after `t` rounds (R101). -/
def workAt (hin : Chain) (b : Block) (t : Nat) : Work :=
  rounds ((roundConstants.zip (schedule b)).take t) (Work.ofChain hin)

/-- Round `t` takes K[t] and W[t] (R101). -/
theorem workAt_succ (hin : Chain) (b : Block) {t : Nat} (lt : t < 64) :
    workAt hin b (t + 1) = round (workAt hin b t) (roundConstants.getD t 0) ((schedule b).getD t 0) := by
  have ltK : t < roundConstants.length := by rwa [roundConstants_length]
  have ltW : t < (schedule b).length := by rwa [schedule_length]
  have ltZip : t < (roundConstants.zip (schedule b)).length := by rw [List.length_zip]; exact lt_min ltK ltW
  rw [workAt, rounds, List.take_succ_eq_append_getElem ltZip, List.foldl_append, List.getElem_zip,
    List.getD_eq_getElem _ _ ltK, List.getD_eq_getElem _ _ ltW]
  rfl

/-- Compress uses the working variables after all 64 rounds (R102). -/
theorem workAt_64 (hin : Chain) (b : Block) : workAt hin b 64 = workAfter hin b := by
  have whole : (roundConstants.zip (schedule b)).length ≤ 64 := by simp [roundConstants_length]
  rw [workAt, List.take_of_length_le whole, workAfter]

/-- Settles O45, with `workAt` as the sequence. -/
theorem compressRounds : Obligations.CompressRounds := by
  intro hin b
  refine ⟨workAt hin b, rfl, ?_, ?_⟩
  · rintro t lt _ _ rfl rfl
    exact workAt_succ hin b lt
  · simp only [compress, workAt_64]

/-! ### Byte streams through the procedures -/

/-- Finish on the stream `M` leaves the digest of `M` (R107). -/
theorem Absorbed.digest {M : List Byte} {a : Arch} (holds : Absorbed M a) :
    digestBytes (Machine.finish a).h = sha256 M := by
  rw [holds.finish, sha256]

/-- The padded message is one block more than what the message and the 8 length bytes fill (R107, R108). -/
theorem padMessage_length (M : List Byte) : (padMessage M).length = 64 * ((M.length + 8) / 64 + 1) := by
  simp only [padMessage, padZeros, List.length_append, List.length_singleton, List.length_replicate, be64_length]
  omega

theorem isLeast_padZeros (L : Nat) : IsLeast {k : Nat | (L + 1 + k + 8) % 64 = 0} (padZeros L) := by
  constructor
  · change (L + 1 + padZeros L + 8) % 64 = 0
    unfold padZeros
    omega
  · intro k (fits : (L + 1 + k + 8) % 64 = 0)
    unfold padZeros
    omega

/-- Settles O50: HInit begins the empty stream, each Absorb appends its byte (`Absorbed.absorbAll`), and Finish
completes the hash of the stream (`Absorbed.digest`). -/
theorem sha256Procedures : Obligations.Sha256Procedures := by
  refine ⟨isLeast_padZeros, fun M => ⟨_, padMessage_length M⟩, fun a M _ => ?_⟩
  have absorbed : Absorbed M (absorbAll M (hInit a)) := (absorbed_hInit a).absorbAll M
  exact ⟨absorbed.digest, by simp, by simp, by simp, by simp, by simp⟩

/-- Settles O51: the Absorb calls compress once for each block they complete, and Finish once or twice by the fill
it finds (`countedAbsorbAll_count`, `countedFinish_count`). -/
theorem compressionCount : Obligations.CompressionCount := by
  intro a M short
  have arch : (countedStream M a).arch = absorbAll M (hInit a) := countedAbsorbAll_arch M _
  have absorbs : (countedStream M a).count = M.length / 64 := by simp [countedStream]
  have len : (countedStream M a).arch.len.toNat = M.length := by
    have fits : M.length < 2 ^ 64 := by omega
    simpa [arch] using fits
  have total : (countedFinish (countedStream M a)).count =
      M.length / 64 + if 56 ≤ M.length % 64 then 2 else 1 := by
    rw [countedFinish_count, absorbs, len]
  refine ⟨arch, by rw [countedFinish_arch, arch], absorbs, fun room => ?_, fun no_room => ?_, ?_, ?_⟩
  · rw [total, if_neg (by omega)]
  · rw [total, if_pos no_room]
  · rw [total]
    split_ifs <;> omega
  · rw [blocksOf, cutBlocks_length, padMessage_length, Nat.mul_div_cancel_left _ (by decide)]

/-- Settles O49: `finish_one` and `finish_two`, the fill being LEN mod 64. -/
theorem finishPadding : Obligations.FinishPadding := by
  rintro a r rfl
  exact ⟨finish_one a, finish_two a⟩

/-- Settles O48. -/
theorem hInitResult : Obligations.HInitResult := fun _ => rfl

/-! ### Runs of accepted commands that answer 0 -/

/-- The state when `n` commands have been answered with 0 and have left the architectural state `a`. -/
def State.silently (s : State) (a : Arch) (n : Nat) : State :=
  { s with arch := a, outbox := s.outbox ++ List.replicate n 0 }

@[simp] theorem silently_arch (s : State) (a : Arch) (n : Nat) : (s.silently a n).arch = a := rfl
@[simp] theorem silently_outbox (s : State) (a : Arch) (n : Nat) :
    (s.silently a n).outbox = s.outbox ++ List.replicate n 0 := rfl
@[simp] theorem silently_silently (s : State) (a b : Arch) (n m : Nat) :
    (s.silently a n).silently b m = s.silently b (n + m) := by
  simp [State.silently]
theorem silently_zero (s : State) : s.silently s.arch 0 = s := by simp [State.silently]

@[simp] theorem commands_cons (i : Instr) (is : List Instr) :
    commands (i :: is) = .command (encode i) :: commands is := rfl
@[simp] theorem commands_append (is js : List Instr) : commands (is ++ js) = commands is ++ commands js :=
  List.map_append

/-- The word of a command has the effect of the command. -/
theorem afterEvent_encode {i : Instr} {s : State} {a : Arch} (does : effect i s.arch = (a, 0)) :
    afterEvent (.command (encode i)) s = s.silently a 1 := by
  simp [afterEvent, wordEffect, does, State.silently]

/-- A command that is legal in the phase is carried out (R187). -/
theorem guarded_of_legal {legal : List Phase} {a : Arch} (inside : a.phase ∈ legal) (live : .fault ∉ legal)
    (out : Arch × Word) : effect.guarded legal a out = out := by
  have no_fault : a.phase ≠ .fault := fun fault => live (fault ▸ inside)
  rw [effect.guarded, if_neg no_fault, if_pos inside]

/-- PUSH below LEN_MAX (R143). -/
theorem effect_push {a : Arch} (absorbing : a.phase ∈ [.hash, .key, .msg]) (room : a.len.toNat < 2 ^ 61 - 1)
    (b : Byte) : effect (.push b) a = (pushByte b a, 0) := by
  have below : a.len ≠ Config.lenMax := fun full => by simp [full, Config.lenMax] at room
  rw [effect, guarded_of_legal absorbing (by decide), if_neg below]

/-- The bytes of a sequence pushed in order. -/
def pushAll (bs : List Byte) (a : Arch) : Arch := bs.foldl (fun a b => pushByte b a) a

@[simp] theorem pushAll_nil (a : Arch) : pushAll [] a = a := rfl
@[simp] theorem pushAll_cons (b : Byte) (bs : List Byte) (a : Arch) :
    pushAll (b :: bs) a = pushAll bs (pushByte b a) := rfl

/-- Outside phase KEY pushing is absorbing (R143). -/
theorem pushAll_of_not_key {a : Arch} (other : a.phase ≠ .key) (bs : List Byte) : pushAll bs a = absorbAll bs a := by
  induction bs generalizing a with
  | nil => rfl
  | cons b bs ih => rw [pushAll_cons, absorbAll_cons, ih (by simpa using other), pushByte, if_neg other]

/-- A run of pushes that stays within LEN_MAX: every byte is accepted (R143, R183). -/
theorem afterEvents_pushes {s : State} {bs : List Byte} (absorbing : s.arch.phase ∈ [.hash, .key, .msg])
    (room : s.arch.len.toNat + bs.length ≤ 2 ^ 61 - 1) :
    afterEvents (commands (bs.map .push)) s = s.silently (pushAll bs s.arch) bs.length := by
  induction bs generalizing s with
  | nil => exact (silently_zero s).symm
  | cons b bs ih =>
    rw [List.length_cons] at room
    have accepted : effect (.push b) s.arch = (pushByte b s.arch, 0) := effect_push absorbing (by omega) b
    have len_next : (pushByte b s.arch).len.toNat = s.arch.len.toNat + 1 := by
      rw [pushByte_len]
      bv_omega
    rw [List.map_cons, commands_cons, afterEvents_cons, afterEvent_encode accepted,
      ih (by simpa using absorbing) (by rw [silently_arch, len_next]; omega), silently_silently, Nat.add_comm 1]
    rfl

/-! ### The HASH operation -/

theorem absorbed_startOperation (p : Phase) (a : Arch) : Absorbed [] (startOperation p a) where
  chain := (absorbed_hInit a).chain
  buffer := (absorbed_hInit a).buffer
  count := rfl

/-- In phase HASH the digest of FINAL is that of Finish (R145). -/
theorem endMessage_h_of_hash {a : Arch} (hash : a.phase = .hash) : (endMessage a).h = (finish a).h := by
  simp [endMessage, hash]

/-- HSTART, the pushes and FINAL are all accepted, and each answers 0 (R78, R141, R143, R145). -/
theorem afterEvents_expandHash {s : State} {M : List Byte} (resting : s.arch.phase ∈ [.idle, .done])
    (short : M.length ≤ 2 ^ 61 - 1) :
    afterEvents (commands (expandHash M)) s =
      s.silently (endMessage (absorbAll M (startOperation .hash s.arch))) (M.length + 2) := by
  have starts : effect .hstart s.arch = (startOperation .hash s.arch, 0) := guarded_of_legal resting (by decide) _
  have pushes : afterEvents (commands (M.map .push)) (s.silently (startOperation .hash s.arch) 1) =
      s.silently (absorbAll M (startOperation .hash s.arch)) (1 + M.length) := by
    rw [afterEvents_pushes (by simp) (by simpa using short), silently_silently, silently_arch,
      pushAll_of_not_key (by simp)]
  have ends : effect .final (absorbAll M (startOperation .hash s.arch)) =
      (endMessage (absorbAll M (startOperation .hash s.arch)), 0) := guarded_of_legal (by simp) (by decide) _
  calc afterEvents (commands (expandHash M)) s
      = afterEvents (commands [.final]) (afterEvents (commands (M.map .push))
          (afterEvent (.command (encode .hstart)) s)) := by
        simp [expandHash, expandPushx, afterEvents_append]
    _ = afterEvent (.command (encode .final))
          (s.silently (absorbAll M (startOperation .hash s.arch)) (1 + M.length)) := by
        rw [afterEvent_encode starts, pushes]
        rfl
    _ = s.silently (endMessage (absorbAll M (startOperation .hash s.arch))) (M.length + 2) := by
        rw [afterEvent_encode ends, silently_silently, Nat.add_comm 1]

/-- Settles O54: the run ends in `afterEvents_expandHash`, where H is the Finish of the stream `M`. -/
theorem hashOperation : Obligations.HashOperation := by
  intro s M resting short
  have absorbed : Absorbed M (absorbAll M (startOperation .hash s.arch)) :=
    (absorbed_startOperation .hash s.arch).absorbAll M
  refine ⟨_, runInbox_sending _ s, ?_⟩
  rw [afterEvents_expandHash (by simpa using resting) short]
  have digest : digestBytes (endMessage (absorbAll M (startOperation .hash s.arch))).h = sha256 M := by
    rw [endMessage_h_of_hash (by simp), absorbed.digest]
  simp [verdict, digest]

end Sys2Proof.Machine

/-! The family of statements on the HMAC processor: the key's capture and erasure, the key block, the whole operation
and its compressions (R120 to R129). -/

namespace Sys2Proof.Machine

/-! ### Erasing the key -/

/-- What an event leaves of an HMAC operation when it ends it (R128, R164, R185). -/
theorem EventEffect.erased_of_leaves_operation {a a' : Arch} {e : HostEvent} (happens : EventEffect a e a')
    (before : a.phase = .key ∨ a.phase = .msg) (not_key : a'.phase ≠ .key) (not_msg : a'.phase ≠ .msg) :
    a'.k0 = zeroBlock ∧ a'.buf = zeroBlock ∧ a'.len = 0 ∧ (a'.phase ≠ .done → a'.h = zeroChain) := by
  cases happens with
  | reset | clr | faulted => exact ⟨rfl, rfl, rfl, fun _ => rfl⟩
  | final => exact ⟨endMessage_k0 a, endMessage_buf a, endMessage_len a, fun not_done => absurd rfl not_done⟩
  | held => exact absurd before (not_or.mpr ⟨not_key, not_msg⟩)
  | push =>
    rw [pushByte_phase] at not_key not_msg
    exact absurd before (not_or.mpr ⟨not_key, not_msg⟩)
  | kend => exact absurd rfl not_msg
  | hstart _ legal | kstart _ legal => rcases before with phase | phase <;> simp [phase] at legal

/-- Settles O36, by the effects a step can have (`step_eventEffect`). -/
theorem keyErased : Obligations.KeyErased := by
  intro s t before ran not_key not_msg
  obtain same | ⟨e, -, happens⟩ := step_eventEffect ran
  · rw [same] at not_key not_msg
    exact absurd before (not_or.mpr ⟨not_key, not_msg⟩)
  · exact happens.erased_of_leaves_operation before not_key not_msg

/-! ### The key block -/

@[simp] theorem xorPad_length (k0 : Block) (pad : Byte) : (xorPad k0 pad).length = 64 := by simp [xorPad]

/-- The key block of a short key is the key, zero-extended (R123). -/
theorem keyBlock_of_short {K : List Byte} (short : K.length ≤ 64) : keyBlock K = blockOfBytes K := by
  rw [keyBlock, if_pos short, blockOfBytes_zeros]

/-- Settles O53: both keys are short, and zero bytes at the end of a block write nothing (`blockOfBytes_zeros`). -/
theorem keyTrailingZeros : Obligations.KeyTrailingZeros := by
  intro K M n short
  have same : keyBlock (K ++ List.replicate n 0) = keyBlock K := by
    rw [keyBlock_of_short (by simpa using short), keyBlock_of_short (by omega), blockOfBytes_zeros]
  exact ⟨same, by rw [hmac, same, hmac]⟩

/-- A digest put into K0 is the zero-extended block of its bytes (R123). -/
theorem keyBlockOfDigest_eq (d : Vector Byte 32) :
    keyBlockOfDigest d = blockOfBytes (d.toList ++ List.replicate 32 0) := by
  rw [blockOfBytes_zeros]
  apply Vector.ext
  intro j lt
  simp only [keyBlockOfDigest, Vector.getElem_ofFn, blockOfBytes_getElem]
  split_ifs with inside
  · rw [List.getD_eq_getElem _ _ (by simpa using inside), Vector.getElem_toList]
  · rw [List.getD_eq_default _ _ (by simpa using inside)]

/-! ### Key capture -/

/-- `Absorbed` speaks of H, BUF and LEN only. -/
theorem Absorbed.congr {M : List Byte} {a b : Arch} (holds : Absorbed M a) (h : b.h = a.h) (buf : b.buf = a.buf)
    (len : b.len = a.len) : Absorbed M b :=
  ⟨h.trans holds.chain, buf.trans holds.buffer, len.trans holds.count⟩

/-- `a` holds the key `K` in phase KEY: its hash in progress, and its first 64 bytes in K0 (R23, R122). -/
structure KeyHeld (K : List Byte) (a : Arch) : Prop where
  phase : a.phase = .key
  stream : Absorbed K a
  captured : a.k0 = blockOfBytes (K.take 64)

theorem KeyHeld.len_toNat {K : List Byte} {a : Arch} (holds : KeyHeld K a) (short : K.length < 2 ^ 64) :
    a.len.toNat = K.length := by
  rw [holds.stream.count, BitVec.toNat_ofNat, Nat.mod_eq_of_lt short]

theorem keyHeld_startOperation (a : Arch) : KeyHeld [] (startOperation .key a) :=
  ⟨rfl, absorbed_startOperation .key a, by simp [blockOfBytes_nil]⟩

/-- A PUSH in phase KEY captures one more byte of the key (R143). -/
theorem KeyHeld.pushByte {K : List Byte} {a : Arch} (holds : KeyHeld K a) (short : K.length < 2 ^ 64) (b : Byte) :
    KeyHeld (K ++ [b]) (pushByte b a) where
  phase := by rw [pushByte_phase, holds.phase]
  stream := by
    have kept : Absorbed K (keyCapture b a) := holds.stream.congr (by simp) (by simp) (by simp)
    rw [Machine.pushByte, if_pos holds.phase]
    exact kept.absorb b
  captured := by
    rw [pushByte_k0_of_key holds.phase]
    exact keyCapture_k0 holds.captured (holds.len_toNat short) b

theorem KeyHeld.pushAll {K : List Byte} {a : Arch} (holds : KeyHeld K a) {bs : List Byte}
    (short : K.length + bs.length ≤ 2 ^ 64) : KeyHeld (K ++ bs) (pushAll bs a) := by
  induction bs generalizing K a with
  | nil => simpa using holds
  | cons b bs ih =>
    rw [List.length_cons] at short
    have next := ih (holds.pushByte (by omega) b) (by rw [List.length_append, List.length_singleton]; omega)
    rwa [List.append_assoc, List.singleton_append] at next

@[simp] theorem pushAll_errcode (bs : List Byte) (a : Arch) : (pushAll bs a).errcode = a.errcode := by
  induction bs generalizing a with
  | nil => rfl
  | cons b bs ih => rw [pushAll_cons, ih, pushByte_errcode]

/-- The architectural state after KSTART and the pushes of the key `K` (R142, R143). -/
def keyPushed (K : List Byte) (a : Arch) : Arch := pushAll K (startOperation .key a)

@[simp] theorem keyPushed_errcode (K : List Byte) (a : Arch) : (keyPushed K a).errcode = a.errcode := by
  simp [keyPushed]

theorem keyHeld_keyPushed {K : List Byte} (short : K.length ≤ 2 ^ 61 - 1) (a : Arch) : KeyHeld K (keyPushed K a) :=
  (keyHeld_startOperation a).pushAll (by rw [List.length_nil]; omega)

/-- KSTART and the pushes of a key are all accepted, and each answers 0 (R142, R143). -/
theorem afterEvents_keyPushed {s : State} {K : List Byte} (resting : s.arch.phase ∈ [.idle, .done])
    (short : K.length ≤ 2 ^ 61 - 1) :
    afterEvents (commands (.kstart :: K.map .push)) s = s.silently (keyPushed K s.arch) (K.length + 1) := by
  have starts : effect .kstart s.arch = (startOperation .key s.arch, 0) := guarded_of_legal resting (by decide) _
  rw [commands_cons, afterEvents_cons, afterEvent_encode starts,
    afterEvents_pushes (by simp) (by simpa using short), silently_silently, Nat.add_comm 1]
  rfl

/-- Settles O52: the run ends in `afterEvents_keyPushed`, which holds the key (`keyHeld_keyPushed`). -/
theorem keyCaptured : Obligations.KeyCaptured := by
  intro s K resting short
  have held : KeyHeld K (keyPushed K s.arch) := keyHeld_keyPushed short s.arch
  refine ⟨_, runInbox_sending _ s, ?_⟩
  rw [afterEvents_keyPushed (by simpa using resting) short]
  exact ⟨held.phase, keyPushed_errcode K s.arch, held.len_toNat (by omega), held.captured, rfl⟩

/-! ### The HMAC operation -/

/-- DeriveKeyBlock turns the captured key into its key block (R123). -/
theorem KeyHeld.deriveKeyBlock_k0 {K : List Byte} {a : Arch} (holds : KeyHeld K a) (short : K.length < 2 ^ 64) :
    (deriveKeyBlock a).k0 = keyBlock K := by
  have len : a.len.toNat = K.length := holds.len_toNat short
  unfold deriveKeyBlock
  split_ifs with long
  · rw [len] at long
    rw [keyBlock, if_neg (Nat.not_le.mpr long), ← holds.stream.digest]
    exact keyBlockOfDigest_eq _
  · rw [holds.captured, blockOfBytes_take, keyBlock_of_short (by omega)]

/-- KEND leaves the inner hash with the first pad block absorbed (R124, R144). -/
theorem absorbed_endKey (a : Arch) : Absorbed (xorPad (endKey a).k0 Config.ipadByte) (endKey a) := by
  have inner : Absorbed (xorPad (deriveKeyBlock a).k0 Config.ipadByte) (innerStart (deriveKeyBlock a)) :=
    (absorbed_hInit _).absorbAll _
  rw [endKey_k0]
  exact inner.congr rfl rfl rfl

/-- OuterHash hashes the second pad block and the inner digest (R125). -/
theorem outerHash_digest (a : Arch) :
    digestBytes (outerHash a).h = sha256 (xorPad a.k0 Config.opadByte ++ (digestBytes a.h).toList) :=
  (((absorbed_hInit a).absorbAll (xorPad a.k0 Config.opadByte)).absorbAll (digestBytes a.h).toList).digest

/-- In phase MSG the digest of FINAL is that of the outer hash over the inner digest (R145). -/
theorem endMessage_digest_of_msg {a : Arch} (msg : a.phase = .msg) {N : List Byte} (inner : Absorbed N a) :
    digestBytes (endMessage a).h = sha256 (xorPad a.k0 Config.opadByte ++ (sha256 N).toList) := by
  have outer : (endMessage a).h = (outerHash (finish a)).h := by simp [endMessage, msg]
  rw [outer, outerHash_digest, finish_k0, inner.digest]

/-- KEND, the message and FINAL on a held key leave its HMAC (R127). -/
theorem KeyHeld.hmac_digest {K : List Byte} {a : Arch} (holds : KeyHeld K a) (short : K.length < 2 ^ 64)
    (M : List Byte) : digestBytes (endMessage (absorbAll M (endKey a))).h = hmac K M := by
  have block : (endKey a).k0 = keyBlock K := (endKey_k0 a).trans (holds.deriveKeyBlock_k0 short)
  rw [endMessage_digest_of_msg (by simp) ((absorbed_endKey a).absorbAll M), absorbAll_k0, block, hmac]

/-- KEND, the pushes of a message and FINAL are all accepted in phase KEY, and each answers 0 (R143 to R145). -/
theorem afterEvents_kend_final {s : State} {M : List Byte} (key : s.arch.phase = .key)
    (short : M.length ≤ 2 ^ 61 - 65) :
    afterEvents (commands (.kend :: (M.map .push ++ [.final]))) s =
      s.silently (endMessage (absorbAll M (endKey s.arch))) (M.length + 2) := by
  have keyed : effect .kend s.arch = (endKey s.arch, 0) := guarded_of_legal (by simp [key]) (by decide) _
  have pushes : afterEvents (commands (M.map .push)) (s.silently (endKey s.arch) 1) =
      s.silently (absorbAll M (endKey s.arch)) (1 + M.length) := by
    rw [afterEvents_pushes (by simp) (by simp; omega), silently_silently, silently_arch,
      pushAll_of_not_key (by simp)]
  have ends : effect .final (absorbAll M (endKey s.arch)) = (endMessage (absorbAll M (endKey s.arch)), 0) :=
    guarded_of_legal (by simp) (by decide) _
  calc afterEvents (commands (.kend :: (M.map .push ++ [.final]))) s
      = afterEvents (commands [.final]) (s.silently (absorbAll M (endKey s.arch)) (1 + M.length)) := by
        rw [commands_cons, commands_append, afterEvents_cons, afterEvents_append, afterEvent_encode keyed, pushes]
    _ = afterEvent (.command (encode .final)) (s.silently (absorbAll M (endKey s.arch)) (1 + M.length)) := rfl
    _ = s.silently (endMessage (absorbAll M (endKey s.arch))) (M.length + 2) := by
        rw [afterEvent_encode ends, silently_silently, Nat.add_comm 1]

/-- Every command of an HMAC operation is accepted, and each answers 0 (R78, R142 to R145). -/
theorem afterEvents_expandHmac {s : State} {K M : List Byte} (resting : s.arch.phase ∈ [.idle, .done])
    (shortK : K.length ≤ 2 ^ 61 - 1) (shortM : M.length ≤ 2 ^ 61 - 65) :
    afterEvents (commands (expandHmac K M)) s =
      s.silently (endMessage (absorbAll M (endKey (keyPushed K s.arch)))) (K.length + M.length + 3) := by
  have key : (keyPushed K s.arch).phase = .key := (keyHeld_keyPushed shortK s.arch).phase
  have count : K.length + 1 + (M.length + 2) = K.length + M.length + 3 := by omega
  rw [expandHmac_eq, ← List.cons_append, commands_append, afterEvents_append, afterEvents_keyPushed resting shortK,
    afterEvents_kend_final key shortM, silently_silently, silently_arch, count]

/-- Settles O55: the run ends in `afterEvents_expandHmac`, and its digest is `KeyHeld.hmac_digest`. -/
theorem hmacOperation : Obligations.HmacOperation := by
  intro s K M resting shortK shortM
  have held : KeyHeld K (keyPushed K s.arch) := keyHeld_keyPushed shortK s.arch
  refine ⟨_, runInbox_sending _ s, ?_⟩
  rw [afterEvents_expandHmac (by simpa using resting) shortK shortM]
  exact ⟨rfl, held.hmac_digest (by omega) M, endMessage_buf _, endMessage_k0 _, endMessage_len _, by simp, rfl⟩

/-! ### Compressions of one command -/

/-- A command whose response is 0, on the whole state. -/
theorem exec_of_effect {i : Instr} {s : State} {a : Arch} (does : effect i s.arch = (a, 0)) :
    exec i s = .next { s with arch := a, outbox := s.outbox ++ [0] } := by
  rw [exec_eq_effect, does]

/-- PUSH with LEN other than LEN_MAX (R143, R183). -/
theorem effect_push_of_ne {a : Arch} (absorbing : a.phase ∈ [.hash, .key, .msg]) (room : a.len ≠ Config.lenMax)
    (b : Byte) : effect (.push b) a = (pushByte b a, 0) := by
  rw [effect, guarded_of_legal absorbing (by decide), if_neg room]

/-- PUSH compresses once when its byte completes a block, else not (R129). -/
theorem countedPush_count (b : Byte) (a : Arch) :
    (countedPush b a).count = if 64 ∣ a.len.toNat + 1 then 1 else 0 := by
  have len : (if a.phase = .key then keyCapture b a else a).len = a.len := by split_ifs <;> simp
  have count : (countedPush b a).count = (a.len.toNat % 64 + 1) / 64 := by
    rw [countedPush, countedAbsorb_count, len, Nat.zero_add]
  rw [count]
  split_ifs <;> omega

/-- The key hash costs one Finish, and only a key over 64 bytes has one (R123). -/
theorem countedDeriveKeyBlock_count (a : Arch) :
    (countedDeriveKeyBlock a).count = if 64 < a.len.toNat then if 56 ≤ a.len.toNat % 64 then 2 else 1 else 0 := by
  unfold countedDeriveKeyBlock
  split_ifs with long no_room <;> simp [*]

/-- KEND compresses the inner pad block after the key hash (R129). -/
theorem countedEndKey_count (a : Arch) :
    (countedEndKey a).count = if a.len.toNat ≤ 64 then 1 else if 56 ≤ a.len.toNat % 64 then 3 else 2 := by
  have pad : (countedEndKey a).count = (countedDeriveKeyBlock a).count + 1 := by simp [countedEndKey]
  rw [pad, countedDeriveKeyBlock_count]
  split_ifs <;> omega

/-- The outer hash is two blocks: the pad, and the inner digest with its padding (R125). -/
@[simp] theorem countedOuterHash_count (c : Counted) : (countedOuterHash c).count = c.count + 2 := by
  simp [countedOuterHash]

/-- FINAL performs Finish, in phase MSG also the outer hash (R129). -/
theorem countedEndMessage_count (a : Arch) :
    (countedEndMessage a).count =
      (if 56 ≤ a.len.toNat % 64 then 2 else 1) + if a.phase = .msg then 2 else 0 := by
  unfold countedEndMessage
  split_ifs <;> simp [*]

/-- Settles O57: each counting procedure leaves what its command leaves, and the counts are those of its parts. -/
theorem compressionsPerCommand : Obligations.CompressionsPerCommand := by
  intro s
  refine ⟨fun b absorbing room => ⟨?_, countedPush_count b s.arch⟩, fun key => ⟨?_, countedEndKey_count s.arch⟩,
    fun absorbing => ⟨?_, countedEndMessage_count s.arch⟩⟩
  · rw [countedPush_arch]
    exact exec_of_effect (effect_push_of_ne (by simpa using absorbing) room b)
  · rw [countedEndKey_arch]
    exact exec_of_effect (guarded_of_legal (by simp [key]) (by decide) _)
  · rw [countedEndMessage_arch]
    exact exec_of_effect (guarded_of_legal (by simpa using absorbing) (by decide) _)

end Sys2Proof.Machine

/-! The family of statements on the stream commands: HSTART, KSTART, PUSH, KEND and FINAL in every phase (R141 to R145),
and the phase table (R140). -/

namespace Sys2Proof.Machine

/-! ### The order of the checks -/

/-- In phase FAULT a guarded command is ignored (R188). -/
theorem guarded_of_fault {a : Arch} (fault : a.phase = .fault) (legal : List Phase) (out : Arch × Word) :
    effect.guarded legal a out = (a, 0) := by
  rw [effect.guarded, if_pos fault]

/-- Outside its phases and FAULT a guarded command takes the SEQ fault (R182). -/
theorem guarded_of_illegal {legal : List Phase} {a : Arch} (outside : a.phase ∉ .fault :: legal)
    (out : Arch × Word) : effect.guarded legal a out = (faultEntry .seq, 0) := by
  rw [effect.guarded, if_neg (List.ne_of_not_mem_cons outside), if_neg (List.not_mem_of_not_mem_cons outside)]

section
variable {i : Instr} {s : State} {legal : List Phase} {out : Arch × Word}

/-- A guarded command on the whole state, in phase FAULT. -/
theorem exec_of_fault (guards : effect i s.arch = effect.guarded legal s.arch out) (fault : s.arch.phase = .fault) :
    exec i s = .next { s with outbox := s.outbox ++ [0] } :=
  exec_of_effect (guards.trans (guarded_of_fault fault legal out))

/-- A guarded command on the whole state, outside its phases and FAULT. -/
theorem exec_of_illegal (guards : effect i s.arch = effect.guarded legal s.arch out)
    (outside : s.arch.phase ∉ .fault :: legal) :
    exec i s = .next { s with arch := faultEntry .seq, outbox := s.outbox ++ [0] } :=
  exec_of_effect (guards.trans (guarded_of_illegal outside out))

end

/-! ### HSTART and KSTART -/

/-- A command that starts an operation, in every phase: legal in IDLE and DONE only (R141, R142). -/
theorem exec_start {i : Instr} {p : Phase} {s : State}
    (starts : effect i s.arch = effect.guarded [.idle, .done] s.arch (startOperation p s.arch, 0)) :
    (s.arch.phase = .idle ∨ s.arch.phase = .done →
      exec i s = .next { s with arch := startOperation p s.arch, outbox := s.outbox ++ [0] }) ∧
    (s.arch.phase = .hash ∨ s.arch.phase = .key ∨ s.arch.phase = .msg →
      exec i s = .next { s with arch := faultEntry .seq, outbox := s.outbox ++ [0] }) ∧
    (s.arch.phase = .fault → exec i s = .next { s with outbox := s.outbox ++ [0] }) := by
  refine ⟨fun resting => ?_, fun busy => ?_, exec_of_fault starts⟩
  · exact exec_of_effect (starts.trans (guarded_of_legal (by simpa using resting) (by decide) _))
  · exact exec_of_illegal starts (by rcases busy with phase | phase | phase <;> simp [phase])

/-- Settles O17: HSTART starts an operation in phase HASH (`exec_start`). -/
theorem hstartResult : Obligations.HstartResult := ⟨rfl, fun _ => exec_start rfl⟩

/-- Settles O18: KSTART starts an operation in phase KEY (`exec_start`). -/
theorem kstartResult : Obligations.KstartResult := ⟨rfl, fun _ => exec_start rfl⟩

/-! ### PUSH -/

/-- The byte at LEN completes a block exactly when 63 bytes wait (R104). -/
theorem fill_add_one_eq_zero_iff (v : BitVec 64) : fill (v + 1) = 0 ↔ v.toNat % 64 = 63 := by
  have next : (fill (v + 1)).val = (v.toNat + 1) % 64 := toNat_add_one_mod_64 v
  rw [Fin.ext_iff, next, Fin.val_zero]
  omega

theorem absorb_h (b : Byte) (a : Arch) :
    (absorb b a).h = if a.len.toNat % 64 = 63 then compress a.h (memWrite1 a.buf (fill a.len) b) else a.h := by
  simp only [absorb, appendByte_len, fill_add_one_eq_zero_iff]
  split_ifs <;> rfl

theorem absorb_buf (b : Byte) (a : Arch) :
    (absorb b a).buf = if a.len.toNat % 64 = 63 then zeroBlock else memWrite1 a.buf (fill a.len) b := by
  simp only [absorb, appendByte_len, fill_add_one_eq_zero_iff]
  split_ifs <;> rfl

/-- Key capture touches nothing that Absorb reads, so PUSH does to H what Absorb does (R143). -/
theorem pushByte_h (b : Byte) (a : Arch) : (pushByte b a).h = (absorb b a).h := by
  unfold pushByte
  split_ifs <;> simp [absorb_h]

theorem pushByte_buf (b : Byte) (a : Arch) : (pushByte b a).buf = (absorb b a).buf := by
  unfold pushByte
  split_ifs <;> simp [absorb_buf]

/-- PUSH writes K0 in phase KEY while LEN is within the key block (R122, R143). -/
theorem pushByte_k0 (b : Byte) (a : Arch) :
    (pushByte b a).k0 =
      if lt : a.phase = .key ∧ a.len.toNat < 64 then a.k0.set a.len.toNat b lt.2 else a.k0 := by
  by_cases key : a.phase = .key
  · rw [pushByte_k0_of_key key, keyCapture]
    split_ifs with lt captured captured
    · rfl
    · exact absurd ⟨key, lt⟩ captured
    · exact absurd captured.2 lt
    · rfl
  · rw [pushByte_k0_of_not_key key, dif_neg fun both => key both.1]

/-- Two architectural states with the same six elements are the same (R20). -/
@[ext] theorem Arch.ext {a b : Arch} (h : a.h = b.h) (buf : a.buf = b.buf) (k0 : a.k0 = b.k0) (len : a.len = b.len)
    (phase : a.phase = b.phase) (errcode : a.errcode = b.errcode) : a = b := by
  cases a
  cases b
  simp_all

/-- PUSH at LEN_MAX (R183). -/
theorem effect_push_full {a : Arch} (absorbing : a.phase ∈ [.hash, .key, .msg]) (full : a.len = Config.lenMax)
    (b : Byte) : effect (.push b) a = (faultEntry .lenovf, 0) := by
  rw [effect, guarded_of_legal absorbing (by decide), if_pos full]

/-- Settles O19: below LEN_MAX PUSH is `pushByte`, whose six fields are written out in `pushByte_h`, `pushByte_buf`,
`pushByte_k0` and the laws of the state. -/
theorem pushResult : Obligations.PushResult := by
  refine ⟨encode_push, fun s b => ⟨fun absorbing room => ?_, fun absorbing full => ?_, fun resting => ?_,
    exec_of_fault rfl⟩⟩
  · refine exec_of_effect ((effect_push_of_ne (by simpa using absorbing) room b).trans (Prod.ext (Arch.ext ?_ ?_
      (pushByte_k0 b s.arch) (pushByte_len s.arch b) (pushByte_phase s.arch b) (pushByte_errcode s.arch b)) rfl))
    · exact (pushByte_h b s.arch).trans (absorb_h b s.arch)
    · exact (pushByte_buf b s.arch).trans (absorb_buf b s.arch)
  · exact exec_of_effect (effect_push_full (by simpa using absorbing) full b)
  · exact exec_of_illegal rfl (by rcases resting with phase | phase <;> simp [phase])

/-! ### KEND -/

/-- The key block in K0 as KEND derives it (R123). -/
theorem deriveKeyBlock_k0 (a : Arch) :
    (deriveKeyBlock a).k0 =
      if 64 < a.len.toNat then blockOfBytes ((digestBytes (finish a).h).toList ++ List.replicate 32 0) else a.k0 := by
  unfold deriveKeyBlock
  split_ifs
  · exact keyBlockOfDigest_eq _
  · rfl

theorem tailPart_of_whole {M : List Byte} (whole : M.length % 64 = 0) : tailPart M = [] :=
  List.eq_nil_of_length_eq_zero ((tailPart_length M).trans whole)

/-- KEND leaves the compression of IV with the one block of K0 xor ipad (R124). -/
theorem endKey_h (a : Arch) :
    (endKey a).h = compress initialHash (blockOfBytes (xorPad (endKey a).k0 Config.ipadByte)) := by
  rw [(absorbed_endKey a).chain, blocksOf_one _ (xorPad_length _ _)]
  rfl

@[simp] theorem endKey_buf (a : Arch) : (endKey a).buf = zeroBlock := by
  rw [(absorbed_endKey a).buffer, tailPart_of_whole (by rw [xorPad_length]), blockOfBytes_nil]

/-- Settles O20: KEND is `endKey`, whose H and BUF hold the inner pad block absorbed (`absorbed_endKey`). -/
theorem kendResult : Obligations.KendResult := by
  refine ⟨rfl, fun s => ⟨fun key kb derived => ?_, fun elsewhere => ?_, exec_of_fault rfl⟩⟩
  · have k0 : (endKey s.arch).k0 = kb := by rw [endKey_k0, deriveKeyBlock_k0, derived]
    have h : (endKey s.arch).h = compress initialHash (blockOfBytes (kb.toList.map (· ^^^ 0x36))) := by
      rw [endKey_h, k0]; rfl
    exact exec_of_effect ((guarded_of_legal (by simp [key]) (by decide) _).trans (Prod.ext (Arch.ext h
      (endKey_buf s.arch) k0 (endKey_len s.arch) (endKey_phase s.arch) (endKey_errcode s.arch)) rfl))
  · exact exec_of_illegal rfl (by rcases elsewhere with phase | phase | phase | phase <;> simp [phase])

/-! ### FINAL -/

/-- The outer message is one pad block and 32 bytes, so its padding is 23 zeros and the length 0x300 (R105, R125). -/
theorem blocksOf_padMessage_outer {pad digest : List Byte} (block : pad.length = 64) (bytes : digest.length = 32) :
    blocksOf (padMessage (pad ++ digest)) =
      [blockOfBytes pad, blockOfBytes (digest ++ [0x80] ++ List.replicate 23 0 ++ [0, 0, 0, 0, 0, 0, 3, 0])] := by
  have padded : padMessage (pad ++ digest) =
      pad ++ (digest ++ [0x80] ++ List.replicate 23 0 ++ [0, 0, 0, 0, 0, 0, 3, 0]) := by
    have length : (pad ++ digest).length = 96 := by rw [List.length_append, block, bytes]
    have zeros : padZeros 96 = 23 := rfl
    have bits : be64 (BitVec.ofNat 64 (8 * 96)) = [0, 0, 0, 0, 0, 0, 3, 0] := by decide
    rw [padMessage, length, zeros, bits]
    simp only [List.append_assoc]
  rw [padded, blocksOf_append _ _ ⟨1, block⟩, blocksOf_one pad block, blocksOf_one _ (by simp [bytes])]
  rfl

/-- OuterHash as two compressions (R125). -/
theorem outerHash_h (a : Arch) :
    (outerHash a).h = compress (compress initialHash (blockOfBytes (xorPad a.k0 Config.opadByte)))
      (blockOfBytes ((digestBytes a.h).toList ++ [0x80] ++ List.replicate 23 0 ++ [0, 0, 0, 0, 0, 0, 3, 0])) := by
  have absorbed : Absorbed (xorPad a.k0 Config.opadByte ++ (digestBytes a.h).toList)
      (absorbAll (digestBytes a.h).toList (absorbAll (xorPad a.k0 Config.opadByte) (hInit a))) :=
    ((absorbed_hInit a).absorbAll _).absorbAll _
  rw [outerHash, absorbed.finish, blocksOf_padMessage_outer (xorPad_length _ _) (by simp)]
  rfl

/-- In phase MSG the digest of FINAL is that of the outer hash (R145). -/
theorem endMessage_h_of_msg {a : Arch} (msg : a.phase = .msg) : (endMessage a).h = (outerHash (finish a)).h := by
  simp [endMessage, msg]

/-- FINAL on the whole state, with the H it leaves (R128, R145). -/
theorem exec_final {s : State} (legal : s.arch.phase ∈ [.hash, .msg]) {h : Chain}
    (digest : (endMessage s.arch).h = h) :
    exec .final s = .next
      { s with
        arch := { h := h, buf := zeroBlock, k0 := zeroBlock, len := 0, phase := .done, errcode := s.arch.errcode },
        outbox := s.outbox ++ [0] } :=
  exec_of_effect ((guarded_of_legal legal (by decide) _).trans (Prod.ext (Arch.ext digest (endMessage_buf s.arch)
    (endMessage_k0 s.arch) (endMessage_len s.arch) (endMessage_phase s.arch) (endMessage_errcode s.arch)) rfl))

/-- Settles O21: FINAL leaves the H of Finish, in phase MSG that of the outer hash over it (`outerHash_h`). -/
theorem finalResult : Obligations.FinalResult := by
  refine ⟨rfl, fun s => ⟨fun hash => ?_, fun msg => ?_, fun elsewhere => ?_, exec_of_fault rfl⟩⟩
  · exact exec_final (by simp [hash]) (endMessage_h_of_hash hash)
  · refine exec_final (by simp [msg]) ?_
    rw [endMessage_h_of_msg msg, outerHash_h, finish_k0]
    rfl
  · exact exec_of_illegal rfl (by rcases elsewhere with phase | phase | phase <;> simp [phase])

/-! ### The phase table -/

/-- What an entry of the phase table claims of a command word's effect on `a`: the state `out.1` and the response
`out.2` (R140). -/
def PhaseEntry.Holds (a : Arch) (out : Arch × Word) : PhaseEntry → Prop
  | .after p => out.1.phase = p ∧ (p ≠ a.phase → p ≠ .fault)
  | .afterOrLenovf p =>
    (a.len = Config.lenMax → out = (faultEntry .lenovf, 0)) ∧ (a.len ≠ Config.lenMax → out.1.phase = p)
  | .raises c => out = (faultEntry c, 0)
  | .ignored => out = (a, 0)

/-- The entry that the order of the checks gives a command legal only in some phases (R187). -/
def guardedEntry (legal : List Phase) (accept : Phase → PhaseEntry) (p : Phase) : PhaseEntry :=
  if p = .fault then .ignored else if p ∈ legal then accept p else .raises .seq

/-- A row that follows the order of the checks holds of a guarded command once its legal phases do. -/
theorem holds_guarded {a : Arch} {legal : List Phase} {out : Arch × Word} {row accept : Phase → PhaseEntry}
    (follows : ∀ p, row p = guardedEntry legal accept p)
    (accepted : a.phase ∈ legal → (accept a.phase).Holds a out) :
    (row a.phase).Holds a (effect.guarded legal a out) := by
  rw [follows]
  unfold guardedEntry effect.guarded
  split_ifs with fault inside
  · rfl
  · exact accepted inside
  · rfl

/-- The same for a command that enters one phase from every phase in which it is legal. -/
theorem holds_guarded_after {a : Arch} {legal : List Phase} {out : Arch × Word} {row : Phase → PhaseEntry}
    {q : Phase} (follows : ∀ p, row p = guardedEntry legal (fun _ => .after q) p) (live : q ≠ .fault)
    (enters : a.phase ∈ legal → out.1.phase = q) : (row a.phase).Holds a (effect.guarded legal a out) :=
  holds_guarded follows fun inside => ⟨enters inside, fun _ => live⟩

/-- The entry of a command in a phase is what the command does there. -/
theorem phaseTable_holds_effect (i : Instr) (a : Arch) : (phaseTable (some i) a.phase).Holds a (effect i a) := by
  cases i with
  | nop | rdst =>
    rcases a with ⟨_, _, _, _, phase, _⟩
    cases phase <;> exact ⟨rfl, absurd rfl⟩
  | clr => cases a.phase <;> exact ⟨rfl, fun _ => by decide⟩
  | hstart | kstart | kend | final =>
    exact holds_guarded_after (by intro p; cases p <;> rfl) (by simp) fun _ => rfl
  | rdw | rdb =>
    exact holds_guarded_after (by intro p; cases p <;> rfl) (by decide) List.mem_singleton.mp
  | push b =>
    refine holds_guarded (accept := .afterOrLenovf) (by intro p; cases p <;> rfl) fun _ =>
      ⟨fun full => ?_, fun room => ?_⟩
    · rw [if_pos full]
    · rw [if_neg room, pushByte_phase]

/-- The entry of any word in a phase, ILLEGAL included, is what the word does there (R140, R181). -/
theorem phaseTable_holds_wordEffect (cw : Word) (a : Arch) :
    (phaseTable (decode cw) a.phase).Holds a (wordEffect cw a) := by
  unfold wordEffect
  cases decode cw with
  | some i => exact phaseTable_holds_effect i a
  | none =>
    have row : phaseTable none a.phase = if a.phase = .fault then .ignored else .raises .illcmd := by
      cases a.phase <;> rfl
    rw [row]
    dsimp only
    split_ifs <;> rfl

/-- Settles O31: a step ends in the word's effect (`step_cons`), of which the entry holds
(`phaseTable_holds_wordEffect`). -/
theorem phaseTableHolds : Obligations.PhaseTableHolds := by
  intro s cw rest waits
  have holds := phaseTable_holds_wordEffect cw s.arch
  have ran := step_cons s _ rest waits
  cases entry : phaseTable (decode cw) s.arch.phase with rw [entry] at holds
  | after p => exact ⟨_, ran, holds⟩
  | afterOrLenovf p =>
    obtain ⟨at_max, below⟩ := holds
    dsimp only
    split_ifs with full
    · rw [ran, afterEvent, at_max full]
    · exact ⟨_, ran, below full⟩
  | raises c => rw [ran, afterEvent, holds]
  | ignored => rw [ran, afterEvent, holds]

end Sys2Proof.Machine

/-! The family of statements on the read-out and control commands: NOP, CLR, RDST, RDW and RDB in every phase
(R160 to R164), and the read-out of a whole digest (R57, R78). -/

namespace Sys2Proof.Machine

/-! ### NOP and RDST -/

/-- Settles O14: NOP keeps the architectural state and answers 0. -/
theorem nopResult : Obligations.NopResult := ⟨rfl, fun _ => exec_of_effect rfl⟩

/-- STATUS as a whole word, its upper zeros written out (R27). -/
theorem status_eq_append (a : Arch) :
    status a =
      (0 : BitVec 22) ++ (flagERR a.phase ++ flagDV a.phase ++ a.errcode.code ++ (0 : BitVec 1) ++ a.phase.code) :=
  BitVec.setWidth_eq_append (by decide)

/-- Each field of STATUS read back from its place (R27). -/
theorem status_fields (a : Arch) :
    (status a).extractLsb' 0 3 = a.phase.code ∧ (status a).extractLsb' 3 1 = 0 ∧
    (status a).extractLsb' 4 4 = a.errcode.code ∧ (status a).extractLsb' 8 1 = flagDV a.phase ∧
    (status a).extractLsb' 9 1 = flagERR a.phase ∧ (status a).extractLsb' 10 22 = 0 := by
  rw [status_eq_append]
  refine ⟨?_, ?_, ?_, ?_, ?_, BitVec.extractLsb'_append_eq_left⟩ <;>
    simp (disch := decide) only [BitVec.extractLsb'_append_eq_of_add_le, BitVec.extractLsb'_append_eq_of_le,
      Nat.reduceSub, BitVec.extractLsb'_eq_self]

/-- Under the invariants PHASE fixes STATUS, but for the cause in FAULT (R32, R162). -/
theorem status_mem_of_inv {a : Arch} (inv : a.Inv) :
    status a ∈ [0x00000000, 0x00000001, 0x00000002, 0x00000003, 0x00000104, 0x00000217, 0x00000227, 0x00000237] := by
  cases phase : a.phase with
  | idle | hash | key | msg | done =>
    have err : a.errcode = .none := inv.errcode_eq_none (by simp [phase])
    rw [status, phase, err]
    decide
  | fault =>
    cases err : a.errcode with
    | none => exact absurd err (inv.errcode_iff_fault.mpr phase)
    | of c =>
      rw [status, phase, err]
      cases c <;> decide

/-- Settles O16: the fields of the answer are those of STATUS (`status_fields`), and its values those that the
invariants leave (`status_mem_of_inv`). -/
theorem rdstResult : Obligations.RdstResult := by
  refine ⟨rfl, fun s => ?_⟩
  obtain ⟨phase, zero, err, dv, fault, upper⟩ := status_fields s.arch
  refine ⟨exec_eq_effect s .rdst, phase, zero, err, ?_, ?_, upper, status_mem_of_inv⟩
  · rw [dv, flagDV_eq_one]
  · rw [fault, flagERR_eq_one]

/-! ### CLR -/

/-- The architectural state after a command is that of its effect. -/
theorem arch_of_exec {i : Instr} {s t : State} (ran : exec i s = .next t) : t.arch = (effect i s.arch).1 := by
  rw [exec_eq_effect] at ran
  injection ran with same
  rw [← same]

/-- In phase FAULT every command but CLR leaves the architectural state as it is (R188). -/
theorem effect_arch_of_fault {i : Instr} {a : Arch} (other : i ≠ .clr) (fault : a.phase = .fault) :
    (effect i a).1 = a := by
  cases i with
  | clr => exact absurd rfl other
  | nop | rdst => rfl
  | hstart | kstart | kend | final | push | rdw | rdb => exact congrArg Prod.fst (guarded_of_fault fault _ _)

/-- Settles O15, by cases on the command: in FAULT by `effect_arch_of_fault`; in an operation a command that is not
legal there takes SEQ, and each of PUSH, KEND and FINAL is taken where it is legal and where it is not. -/
theorem clrResult : Obligations.ClrResult := by
  refine ⟨rfl, fun s => exec_eq_effect s .clr, fun i s t fault ran leaves => ?_, fun i s t busy ran => ?_⟩
  · by_contra other
    rw [arch_of_exec ran, effect_arch_of_fault other fault] at leaves
    exact leaves fault
  · have seq {legal : List Phase} {out : Arch × Word} (outside : s.arch.phase ∉ .fault :: legal) :
        (effect.guarded legal s.arch out).1 = faultEntry .seq :=
      congrArg Prod.fst (guarded_of_illegal outside out)
    have absorbing : s.arch.phase ∈ [.hash, .key, .msg] := by simpa using busy
    rw [arch_of_exec ran]
    cases i with
    | clr => exact .inl rfl
    | nop => exact .inr (.inr (.inl ⟨.inl rfl, rfl⟩))
    | rdst => exact .inr (.inr (.inl ⟨.inr rfl, rfl⟩))
    | hstart | kstart | rdw | rdb =>
      exact .inr (.inl ⟨.seq, seq (by rcases busy with phase | phase | phase <;> simp [phase])⟩)
    | push b =>
      by_cases full : s.arch.len = Config.lenMax
      · exact .inr (.inl ⟨.lenovf, congrArg Prod.fst (effect_push_full absorbing full b)⟩)
      · rw [effect_push_of_ne absorbing full b]
        exact .inr (.inr (.inr (.inl ⟨b, rfl, rfl, pushByte_phase s.arch b, pushByte_len s.arch b⟩)))
    | kend =>
      rcases busy with phase | key | phase
      case inr.inl =>
        have accepted : effect .kend s.arch = (endKey s.arch, 0) := guarded_of_legal (by simp [key]) (by decide) _
        rw [accepted]
        exact .inr (.inr (.inr (.inr (.inl ⟨rfl, key, endKey_phase s.arch⟩))))
      all_goals exact .inr (.inl ⟨.seq, seq (by simp [phase])⟩)
    | final =>
      by_cases key : s.arch.phase = .key
      · exact .inr (.inl ⟨.seq, seq (by simp [key])⟩)
      · have accepted : effect .final s.arch = (endMessage s.arch, 0) :=
          guarded_of_legal (by simpa [key] using absorbing) (by decide) _
        rw [accepted]
        exact .inr (.inr (.inr (.inr (.inr ⟨rfl, key, endMessage_phase s.arch⟩))))

/-! ### RDW and RDB -/

/-- A command legal only in DONE takes SEQ in every phase before a digest (R160, R161, R182). -/
theorem exec_readout_of_not_done {i : Instr} {s : State} {out : Arch × Word}
    (reads : effect i s.arch = effect.guarded [.done] s.arch out)
    (early : s.arch.phase = .idle ∨ s.arch.phase = .hash ∨ s.arch.phase = .key ∨ s.arch.phase = .msg) :
    exec i s = .next { s with arch := faultEntry .seq, outbox := s.outbox ++ [0] } :=
  exec_of_illegal reads (by rcases early with phase | phase | phase | phase <;> simp [phase])

/-- Byte `4*idx3 + j` of the digest is byte `j` of word `idx3` (R29, R56). -/
theorem digestByte_wordAddr (h : Chain) (i : BitVec 3) (j : Fin 4) :
    digestByte h (wordAddr i j) = byteOfWord (h[i.toNat]'i.isLt) j.val := by
  have word : (wordAddr i j).val / 4 = i.toNat := by simp only [wordAddr]; omega
  have byte : (wordAddr i j).val % 4 = j.val := by simp only [wordAddr]; omega
  simp only [digestByte, word, byte]

/-- The word at `4*idx3` of the digest space is `H[idx3]` (R160). -/
theorem memRead4_eq_getElem (h : Chain) (i : BitVec 3) : memRead4 h i = h[i.toNat]'i.isLt := by
  calc memRead4 h i
      = wordOfBytes (byteOfWord (h[i.toNat]'i.isLt) 0) (byteOfWord (h[i.toNat]'i.isLt) 1)
          (byteOfWord (h[i.toNat]'i.isLt) 2) (byteOfWord (h[i.toNat]'i.isLt) 3) := by
        simp only [memRead4, memRead1, digestByte_wordAddr]
        rfl
    _ = (h[i.toNat]'i.isLt).extractLsb' 0 32 := wordOfBytes_extractLsb' _ 0
    _ = h[i.toNat]'i.isLt := BitVec.extractLsb'_eq_self

/-- Settles O22: in DONE the answer is `memRead4`, which is both the word of H (`memRead4_eq_getElem`) and, by its
definition, the four digest bytes. -/
theorem rdwResult : Obligations.RdwResult := by
  refine ⟨encode_rdw, fun s i => ⟨fun done => ⟨?_, (memRead4_eq_getElem s.arch.h i).symm⟩,
    exec_readout_of_not_done rfl, exec_of_fault rfl⟩⟩
  rw [exec_rdw_done done, memRead4_eq_getElem]

/-- Settles O23: the answer in DONE is the byte widened with zeros, so the word of the byte's number. -/
theorem rdbResult : Obligations.RdbResult := by
  refine ⟨encode_rdb, fun s i => ⟨fun done => ?_, exec_readout_of_not_done rfl, exec_of_fault rfl⟩⟩
  rw [exec_rdb_done done, BitVec.ofNat_toNat, memRead1]

/-! ### The whole digest -/

section
variable {ι : Type} {reads : ι → Instr} {answer : ι → Word} {s : State}

/-- Commands that keep the architectural state, taken in order, all answer from that state (R59). -/
theorem afterEvents_of_keeps (keeps : ∀ k, effect (reads k) s.arch = (s.arch, answer k)) (ks : List ι) :
    afterEvents (commands (ks.map reads)) s = { s with outbox := s.outbox ++ ks.map answer } := by
  induction ks generalizing s with
  | nil => simp [commands]
  | cons k ks ih =>
    have answered : afterEvent (.command (encode (reads k))) s = { s with outbox := s.outbox ++ [answer k] } := by
      simp [afterEvent, wordEffect, keeps]
    rw [List.map_cons, commands_cons, afterEvents_cons, answered,
      ih (s := { s with outbox := s.outbox ++ [answer k] }) keeps]
    simp

theorem runInbox_of_keeps (keeps : ∀ k, effect (reads k) s.arch = (s.arch, answer k)) (ks : List ι) :
    runInbox (s.sending (commands (ks.map reads))) =
      .next { arch := s.arch, inbox := [], outbox := s.outbox ++ ks.map answer } := by
  rw [runInbox_sending, afterEvents_of_keeps keeps]
  rfl

end

/-- The digest bytes at the addresses 0 to 31 are `digestBytes` (R57, R106). -/
theorem map_digestByte_finRange (h : Chain) : (List.finRange 32).map (digestByte h) = (digestBytes h).toList := by
  rw [digestBytes, Vector.toList_ofFn, List.ofFn_eq_map]

/-- The words read at the operands 0 to 7 are H (R57). -/
theorem map_memRead4_finRange (h : Chain) :
    (List.finRange 8).map (fun i => memRead4 h (BitVec.ofFin i)) = h.toList :=
  List.ext_getElem (by simp) (by simp [memRead4_eq_getElem])

/-- Settles O56: in DONE every read-out keeps the state (`guarded_done`), so the run answers each operand in order
(`runInbox_of_keeps`), and the answers together are the digest or H. -/
theorem digestReadOut : Obligations.DigestReadOut := by
  refine fun s done => ⟨?_, ?_⟩
  · have byte (i : Fin 32) : effect (.rdb (BitVec.ofFin i)) s.arch =
        (s.arch, (digestByte s.arch.h i).setWidth 32) := guarded_done done _
    rw [expandRddg, runInbox_of_keeps byte, ← map_digestByte_finRange, List.map_map]
    rfl
  · have word (i : Fin 8) : effect (.rdw (BitVec.ofFin i)) s.arch =
        (s.arch, memRead4 s.arch.h (BitVec.ofFin i)) := guarded_done done _
    rw [expandRddw, runInbox_of_keeps word, map_memRead4_finRange]

end Sys2Proof.Machine

/-! The family of statements on exceptions: the three causes and their entry, the sticky phase FAULT and its exits,
and that pushed data never steers the core (R180 to R190). -/

namespace Sys2Proof.Machine

/-! ### A command word's step -/

/-- A step that takes a command word does what `wordEffect` says of the word (R6). -/
theorem step_of_wordEffect {s : State} {cw : Word} {rest : List HostEvent} {out : Arch × Word}
    (waits : s.inbox = .command cw :: rest) (does : wordEffect cw s.arch = out) :
    step s = .next { arch := out.1, inbox := rest, outbox := s.outbox ++ [out.2] } := by
  rw [step_cons s _ rest waits, afterEvent, does]

/-- A legal word has the effect of its command (R74). -/
theorem wordEffect_of_decode {cw : Word} {i : Instr} (read : decode cw = some i) (a : Arch) :
    wordEffect cw a = effect i a := by
  simp only [wordEffect, read]

/-- In phase FAULT a word that is not CLR keeps everything, and only RDST has an answer of its own (R188). -/
theorem wordEffect_of_fault {cw : Word} {a : Arch} (fault : a.phase = .fault) (other : decode cw ≠ some .clr) :
    wordEffect cw a = (a, if decode cw = some .rdst then status a else 0) := by
  unfold wordEffect
  cases read : decode cw with
  | none => simp [fault]
  | some i =>
    cases i with
    | clr => exact absurd read other
    | nop | rdst => simp [effect]
    | hstart | kstart | kend | final | push | rdw | rdb => simp [effect, guarded_of_fault fault]

/-! ### ILLCMD -/

/-- Every command has a row in the opcode map (R73). -/
theorem exists_row (i : Instr) : ∃ r ∈ opcodeTable, i.mnemonic = r.mnemonic := by
  cases i <;> simp [opcodeTable, Instr.mnemonic]

/-- A word that matches no row decodes to ILLEGAL (R74, R181). -/
theorem decode_eq_none_of_no_row {cw : Word} (unmatched : ∀ r ∈ opcodeTable, cw &&& r.mask ≠ r.pattern) :
    decode cw = none := by
  by_contra legal
  obtain ⟨i, read⟩ := Option.ne_none_iff_exists'.mp legal
  obtain ⟨r, row, named⟩ := exists_row i
  exact unmatched r row ((masked_iff row cw).mpr ⟨i, named, encode_of_decode read⟩)

/-- An ILLEGAL word outside FAULT (R181). -/
theorem wordEffect_of_illegal {cw : Word} {a : Arch} (read : decode cw = none) (live : a.phase ≠ .fault) :
    wordEffect cw a = (faultEntry .illcmd, 0) := by
  simp only [wordEffect, read, if_neg live]

/-! ### Faults read from the phase table -/

/-- The table raises ILLCMD for ILLEGAL and SEQ for a command, and never LENOVF outright (R140, R181, R182). -/
theorem cause_of_phaseTable_raises {d : Option Instr} {p : Phase} {c : Cause} (entry : phaseTable d p = .raises c) :
    (d = none ∧ c = .illcmd) ∨ ((∃ i, d = some i) ∧ c = .seq) := by
  cases d with
  | none => cases p <;> simp_all [phaseTable, tableRow]
  | some i => cases i <;> cases p <;> simp_all [phaseTable, tableRow]

/-- The entries that may be LENOVF are those of PUSH in the absorbing phases, and they keep the phase (R140, R183). -/
theorem phaseTable_eq_afterOrLenovf {d : Option Instr} {p q : Phase} :
    phaseTable d p = .afterOrLenovf q ↔
      (∃ b, d = some (.push b)) ∧ (p = .hash ∨ p = .key ∨ p = .msg) ∧ p = q := by
  cases d with
  | none => cases p <;> simp [phaseTable, tableRow]
  | some i => cases i <;> cases p <;> simp [phaseTable, tableRow]

theorem phaseTable_ne_afterOrLenovf_fault (d : Option Instr) (p : Phase) :
    phaseTable d p ≠ .afterOrLenovf .fault := by
  intro entry
  obtain ⟨-, absorbing, rfl⟩ := phaseTable_eq_afterOrLenovf.mp entry
  simp at absorbing

/-- How an entry that holds can lead into FAULT from outside: it raises a cause, or it is PUSH at LEN_MAX (R140). -/
theorem PhaseEntry.Holds.cases_of_enters_fault {entry : PhaseEntry} {a : Arch} {out : Arch × Word}
    (holds : entry.Holds a out) (live : a.phase ≠ .fault) (after : out.1.phase = .fault)
    (absorbs : entry ≠ .afterOrLenovf .fault) :
    (∃ c, entry = .raises c ∧ out = (faultEntry c, 0)) ∨
    ((∃ p, entry = .afterOrLenovf p) ∧ a.len = Config.lenMax ∧ out = (faultEntry .lenovf, 0)) := by
  cases entry with
  | after p =>
    obtain ⟨phase, enters⟩ := holds
    have same : p = .fault := phase.symm.trans after
    exact absurd same (enters fun kept => live (kept.symm.trans same))
  | afterOrLenovf p =>
    obtain ⟨at_max, below⟩ := holds
    by_cases full : a.len = Config.lenMax
    · exact .inr ⟨⟨p, rfl⟩, full, at_max full⟩
    · exact absurd (congrArg _ ((below full).symm.trans after)) absorbs
  | raises c => exact .inl ⟨c, rfl, holds⟩
  | ignored => exact absurd (by rw [← after, show out = (a, 0) from holds]) live

/-- The fault a word takes from outside FAULT, with its cause read from the phase table (R140, R185). -/
theorem wordEffect_cases_of_enters_fault {cw : Word} {a : Arch} (live : a.phase ≠ .fault)
    (after : (wordEffect cw a).1.phase = .fault) :
    (∃ c, phaseTable (decode cw) a.phase = .raises c ∧ wordEffect cw a = (faultEntry c, 0)) ∨
    ((∃ p, phaseTable (decode cw) a.phase = .afterOrLenovf p) ∧ a.len = Config.lenMax ∧
      wordEffect cw a = (faultEntry .lenovf, 0)) :=
  (phaseTable_holds_wordEffect cw a).cases_of_enters_fault live after (phaseTable_ne_afterOrLenovf_fault _ _)

/-- Outside FAULT a command takes the SEQ fault entry exactly where the phase table raises SEQ (R140, R182). -/
theorem exec_eq_seq_iff (i : Instr) (s : State) :
    (exec i s = .next { s with arch := faultEntry .seq, outbox := s.outbox ++ [0] } ∧ s.arch.phase ≠ .fault) ↔
      phaseTable (some i) s.arch.phase = .raises .seq := by
  have holds := phaseTable_holds_effect i s.arch
  constructor
  · rintro ⟨ran, live⟩
    have entered : faultEntry .seq = (effect i s.arch).1 := arch_of_exec ran
    have after : (effect i s.arch).1.phase = .fault := by rw [← entered]; rfl
    obtain ⟨c, entry, does⟩ | ⟨-, -, does⟩ := holds.cases_of_enters_fault live after
        (phaseTable_ne_afterOrLenovf_fault _ _)
    · rw [does] at entered
      obtain rfl : Cause.seq = c := ErrCode.of.inj (congrArg Arch.errcode entered)
      exact entry
    · rw [does] at entered
      exact absurd (congrArg Arch.errcode entered) (by decide)
  · intro entry
    rw [entry] at holds
    refine ⟨exec_of_effect holds, fun fault => ?_⟩
    rw [fault] at entry
    cases i <;> simp [phaseTable, tableRow] at entry

/-- Settles O25: outside FAULT a command takes SEQ where its row of the phase table says so (`effect_eq_seq_iff`), and
the list of R182 is these entries of the table. -/
theorem seqFaults : Obligations.SeqFaults := by
  intro i s
  rw [exec_eq_seq_iff]
  generalize s.arch.phase = p
  cases i <;> cases p <;> simp [phaseTable, tableRow]

/-! ### LENOVF -/

/-- Settles O27: PUSH below LEN_MAX is accepted (`effect_push`), and at LEN_MAX it is not (`effect_push_full`). -/
theorem lenMaxReachedNotPassed : Obligations.LenMaxReachedNotPassed := by
  intro s b phases
  have absorbing : s.arch.phase ∈ [.hash, .key, .msg] := by simpa using phases
  refine ⟨fun below => ?_, fun at_max => ?_⟩
  · refine ⟨_, exec_of_effect (effect_push absorbing (by omega) b), pushByte_phase s.arch b, ?_⟩
    rw [pushByte_len]
    bv_omega
  · have full : s.arch.len = Config.lenMax := BitVec.eq_of_toNat_eq at_max
    exact exec_of_effect (effect_push_full absorbing full b)

/-! ### The sticky phase FAULT -/

/-- Settles O28: CLR has its effect in every phase, and every other word is `wordEffect_of_fault`. -/
theorem faultPhase : Obligations.FaultPhase := by
  intro s cw rest waits fault
  obtain ⟨-, -, err, -, flag, -⟩ := status_fields s.arch
  refine ⟨fun clr => step_of_wordEffect waits (wordEffect_of_decode clr _), fun rdst => ⟨?_, ?_, err⟩,
    fun not_clr not_rdst => ?_⟩
  · exact step_of_wordEffect waits (wordEffect_of_decode rdst _)
  · rw [flag, flagERR_eq_one, fault]
  · have ignored := wordEffect_of_fault fault not_clr
    rw [if_neg not_rdst] at ignored
    exact step_of_wordEffect waits ignored

/-- What an event is answered in phase FAULT when it does not leave it (R188); a reset has no answer, and the value
for it is never used. -/
def faultAnswer (a : Arch) : HostEvent → Word
  | .reset => 0
  | .command cw => if decode cw = some .rdst then status a else 0

/-- In phase FAULT an event that is neither CLR nor reset only adds its answer (R188). -/
theorem afterEvent_of_fault {s : State} {e : HostEvent} (fault : s.arch.phase = .fault) (kept : e.clears = false) :
    afterEvent e s = { s with outbox := s.outbox ++ [faultAnswer s.arch e] } := by
  cases e with
  | reset => simp [HostEvent.clears] at kept
  | command cw =>
    have not_clr : decode cw ≠ some .clr := by simpa [HostEvent.clears] using kept
    rw [afterEvent, wordEffect_of_fault fault not_clr]
    rfl

/-- So does a sequence of such events (R190). -/
theorem afterEvents_of_fault {s : State} {es : List HostEvent} (fault : s.arch.phase = .fault)
    (kept : ∀ e ∈ es, e.clears = false) :
    afterEvents es s = { s with outbox := s.outbox ++ es.map (faultAnswer s.arch) } := by
  induction es generalizing s with
  | nil => simp
  | cons e es ih =>
    obtain ⟨kept_e, kept_es⟩ := List.forall_mem_cons.mp kept
    rw [afterEvents_cons, afterEvent_of_fault fault kept_e,
      ih (s := { s with outbox := s.outbox ++ [faultAnswer s.arch e] }) fault kept_es]
    simp

/-- Settles O29: the run only adds the answers of its events (`afterEvents_of_fault`). -/
theorem faultSticky : Obligations.FaultSticky := by
  intro s es fault kept
  refine ⟨es.map (faultAnswer s.arch), List.length_map _, ?_, fun k cw at_k => ?_⟩
  · rw [runInbox_sending, afterEvents_of_fault fault kept]
    rfl
  · rw [List.getElem?_map, at_k]
    rfl

/-- A reset and a CLR give the reset state, in every phase (R164, R210). -/
theorem afterEvent_arch_of_clears {e : HostEvent} (clears : e.clears = true) (s : State) :
    (afterEvent e s).arch = Arch.reset := by
  cases e with
  | reset => rfl
  | command cw =>
    have clr : decode cw = some .clr := by simpa [HostEvent.clears] using clears
    rw [afterEvent, wordEffect_of_decode clr]
    rfl

/-- Settles O30: an event that does not clear keeps FAULT (`afterEvent_of_fault`), and one that does gives the reset
state (`afterEvent_arch_of_clears`). -/
theorem faultExits : Obligations.FaultExits := by
  intro s t fault ran leaves
  obtain ⟨-, rfl⟩ | ⟨e, rest, waits, rfl⟩ := step_cases s t ran
  · exact absurd fault leaves
  · cases clears : e.clears with
    | true => exact ⟨⟨e, by rw [waits]; rfl, clears⟩, afterEvent_arch_of_clears clears _⟩
    | false =>
      rw [afterEvent_of_fault (s := { s with inbox := rest }) fault clears] at leaves
      exact absurd fault leaves

/-! ### Data never steers -/

/-- What steers the core: PHASE, ERRCODE and LEN (R109, R184). -/
def Arch.control (a : Arch) : Phase × ErrCode × BitVec 64 := (a.phase, a.errcode, a.len)

theorem Arch.control_eq_iff {a b : Arch} :
    a.control = b.control ↔ a.phase = b.phase ∧ a.errcode = b.errcode ∧ a.len = b.len := by
  simp [Arch.control]

/-- The order of the checks reads the control state only (R187). -/
theorem control_guarded {a b : Arch} {out out' : Arch × Word} (same : a.control = b.control) (legal : List Phase)
    (accepted : out.1.control = out'.1.control) :
    (effect.guarded legal a out).1.control = (effect.guarded legal b out').1.control := by
  obtain ⟨phase, -, -⟩ := Arch.control_eq_iff.mp same
  unfold effect.guarded
  rw [phase]
  split_ifs
  exacts [same, accepted, rfl]

/-- What a command does to the control state does not depend on its byte, nor on H, BUF and K0 (R109, R184). -/
theorem control_effect_eraseByte (i : Instr) {a b : Arch} (same : a.control = b.control) :
    (effect i a).1.control = (effect (eraseByte i) b).1.control := by
  obtain ⟨phase, err, len⟩ := Arch.control_eq_iff.mp same
  cases i with
  | nop | rdst => exact same
  | clr => rfl
  | hstart | kstart | kend | final => exact control_guarded same _ (by simp [Arch.control, err])
  | rdw | rdb => exact control_guarded same _ same
  | push byte =>
    refine control_guarded same _ ?_
    rw [len]
    split_ifs
    · rfl
    · simp [Arch.control, phase, err, len]

/-- Two words that differ at most in a pushed byte do the same to the control state (R184). -/
theorem control_wordEffect {cw dw : Word} {a b : Arch} (shape : (decode cw).map eraseByte = (decode dw).map eraseByte)
    (same : a.control = b.control) : (wordEffect cw a).1.control = (wordEffect dw b).1.control := by
  obtain ⟨phase, -, -⟩ := Arch.control_eq_iff.mp same
  unfold wordEffect
  generalize decode cw = c, decode dw = d at shape
  cases c with
  | none =>
    obtain rfl : d = none := by simpa using shape.symm
    dsimp only
    rw [phase]
    split_ifs
    exacts [same, rfl]
  | some i =>
    obtain ⟨j, rfl, erased⟩ : ∃ j, d = some j ∧ eraseByte j = eraseByte i := by simpa using shape.symm
    calc (effect i a).1.control
        = (effect (eraseByte j) b).1.control := erased ▸ control_effect_eraseByte i same
      _ = (effect j b).1.control := (control_effect_eraseByte j rfl).symm

/-- Events of one shape, in states of one control state: the control states after agree, and both events are answered
or neither is (R184). -/
theorem afterEvent_of_shape {e f : HostEvent} {s u : State} (shape : e.shape = f.shape)
    (same : s.arch.control = u.arch.control) :
    (afterEvent e s).arch.control = (afterEvent f u).arch.control ∧
    (afterEvent e s).outbox.length + u.outbox.length = (afterEvent f u).outbox.length + s.outbox.length := by
  cases e with
  | reset =>
    cases f with
    | reset => exact ⟨rfl, Nat.add_comm _ _⟩
    | command => simp [HostEvent.shape] at shape
  | command cw =>
    cases f with
    | reset => simp [HostEvent.shape] at shape
    | command dw =>
      refine ⟨control_wordEffect (Option.some.inj shape) same, ?_⟩
      simp only [afterEvent_command_outbox, List.length_append, List.length_singleton]
      omega

theorem afterEvents_of_shape {es fs : List HostEvent} {s u : State}
    (shapes : es.map HostEvent.shape = fs.map HostEvent.shape) (same : s.arch.control = u.arch.control) :
    (afterEvents es s).arch.control = (afterEvents fs u).arch.control ∧
    (afterEvents es s).outbox.length + u.outbox.length = (afterEvents fs u).outbox.length + s.outbox.length := by
  induction es generalizing fs s u with
  | nil =>
    obtain rfl : fs = [] := by simpa using shapes.symm
    exact ⟨same, Nat.add_comm _ _⟩
  | cons e es ih =>
    obtain ⟨f, fs, rfl, shape, shapes⟩ := List.map_eq_cons_iff.mp shapes.symm
    obtain ⟨same, answered⟩ := afterEvent_of_shape shape.symm same
    obtain ⟨ends, total⟩ := ih shapes.symm same
    exact ⟨ends, by simp only [afterEvents_cons]; omega⟩

/-- Settles O38: each run ends in `afterEvents` of its inbox, and event by event the control states agree
(`afterEvents_of_shape`). -/
theorem dataNeverSteers : Obligations.DataNeverSteers := by
  intro s u shapes phase err len
  obtain ⟨ends, answered⟩ := afterEvents_of_shape shapes (Arch.control_eq_iff.mpr ⟨phase, err, len⟩)
  obtain ⟨phase', err', len'⟩ := Arch.control_eq_iff.mp ends
  exact ⟨_, _, runInbox_sending s.inbox s, runInbox_sending u.inbox u, phase', err', len', answered⟩

end Sys2Proof.Machine

/-! Two statements of the family whose names the model's own operations `illegalWord` and `faultEntry` bear in
`Sys2Proof.Machine`. -/

namespace Sys2Proof
open Machine

/-- Settles O11: a word without a row decodes to ILLEGAL (`decode_eq_none_of_no_row`). -/
theorem illegalWord : Obligations.IllegalWord := by
  intro s cw rest waits unmatched
  have read : decode cw = none := decode_eq_none_of_no_row unmatched
  refine ⟨fun live => step_of_wordEffect waits (wordEffect_of_illegal read live), fun fault => ?_⟩
  have ignored : wordEffect cw s.arch = (s.arch, 0) := by simp [wordEffect_of_fault fault, read]
  exact step_of_wordEffect waits ignored

/-- Settles O26: the fault is an entry of the phase table (`wordEffect_cases_of_enters_fault`), where the causes are
those of `cause_of_phaseTable_raises` and `phaseTable_eq_afterOrLenovf`. -/
theorem faultEntry : Obligations.FaultEntry := by
  intro s t cw rest waits live ran after
  obtain rfl : t = _ := Host.Outcome.next.inj (ran.symm.trans (step_of_wordEffect waits rfl))
  obtain ⟨c, entry, does⟩ | ⟨⟨p, entry⟩, full, does⟩ := wordEffect_cases_of_enters_fault live after
  · have no_push : ¬ ((∃ b, decode cw = some (.push b)) ∧
        (s.arch.phase = .hash ∨ s.arch.phase = .key ∨ s.arch.phase = .msg) ∧ s.arch.len = Config.lenMax) := by
      rintro ⟨push, absorbing, -⟩
      cases entry.symm.trans (phaseTable_eq_afterOrLenovf.mpr ⟨push, absorbing, rfl⟩)
    obtain ⟨read, rfl⟩ | ⟨⟨i, read⟩, rfl⟩ := cause_of_phaseTable_raises entry
    · exact ⟨.illcmd, by rw [does]; rfl, by simp [read], iff_of_false (by decide) no_push⟩
    · exact ⟨.seq, by rw [does]; rfl, by simp [read], iff_of_false (by decide) no_push⟩
  · obtain ⟨⟨b, read⟩, absorbing, -⟩ := phaseTable_eq_afterOrLenovf.mp entry
    exact ⟨.lenovf, by rw [does]; rfl, by simp [read], iff_of_true rfl ⟨⟨b, read⟩, absorbing, full⟩⟩

end Sys2Proof

/-! The family of statements on the reset, the idle step and the commands a host may insert anywhere (R210 to R215). -/

namespace Sys2Proof.Machine

/-! ### The reset and the idle step -/

/-- Settles O2: the oldest event is taken (`step_cons`), and `afterEvent` of a reset writes only the registers. -/
theorem resetEvent : Obligations.ResetEvent := fun s rest waits => step_cons s .reset rest waits

/-- Settles O3: a step with an empty inbox is `step_nil`. -/
theorem idleHoldsState : Obligations.IdleHoldsState := step_nil

/-! ### NOP and RDST inserted anywhere -/

/-- A NOP and an RDST keep the architectural state, in every phase (R163, R213). -/
theorem afterEvent_arch_of_quiet {e : HostEvent} (quiet : e.quiet = true) (s : State) :
    (afterEvent e s).arch = s.arch := by
  cases e with
  | reset => simp [HostEvent.quiet] at quiet
  | command cw =>
    have nop_or_rdst : decode cw = some .nop ∨ decode cw = some .rdst := by simpa [HostEvent.quiet] using quiet
    obtain read | read := nop_or_rdst <;> simp [afterEvent, wordEffect_of_decode read, effect]

/-- What an event does to the architectural state depends on nothing else: no earlier response steers it (R31). -/
theorem afterEvent_arch_congr {s u : State} (same : s.arch = u.arch) (e : HostEvent) :
    (afterEvent e s).arch = (afterEvent e u).arch := by
  cases e with
  | reset => rfl
  | command cw => exact congrArg (fun a => (wordEffect cw a).1) same

/-- From states that agree in the architectural state, the events and the events without NOP and RDST lead to states
that agree in it again: the two outboxes differ, so the start states may differ too (R213, R214). -/
theorem afterEvents_filter_quiet_arch (es : List HostEvent) {s u : State} (same : s.arch = u.arch) :
    (afterEvents es s).arch = (afterEvents (es.filter fun e => !e.quiet) u).arch := by
  induction es generalizing s u with
  | nil => exact same
  | cons e es ih =>
    cases quiet : e.quiet with
    | true =>
      have kept : (afterEvent e s).arch = u.arch := (afterEvent_arch_of_quiet quiet s).trans same
      simpa [quiet] using ih kept
    | false => simpa [quiet] using ih (afterEvent_arch_congr same e)

/-- Settles O39: each run ends in `afterEvents` of its events (`runInbox_sending`), and these agree by
`afterEvents_filter_quiet_arch`. -/
theorem quietCommandsTransparent : Obligations.QuietCommandsTransparent := fun s es =>
  ⟨_, _, runInbox_sending es s, runInbox_sending _ s, afterEvents_filter_quiet_arch es rfl⟩

end Sys2Proof.Machine
